-- ==== Sys2Proof/Word.lean ====
section
/-! DEFINITION. The word widths of the block's port, its descriptor byte and its operand fields
(30_encoding.md R60 to R64). Bit 0 is the least significant bit everywhere (00_scope.md R12). -/

namespace Sys2Proof

/-- A backing byte of SEQ, or a maneuver descriptor (10_state.md R23, 30_encoding.md R64). -/
abbrev Byte := BitVec 8

/-- `CMD`, the 32-bit command word (R60, R61). -/
abbrev CmdWord := BitVec 32

/-- `DATA` and `RESULT`, the 64-bit words of the port (R60). -/
abbrev DataWord := BitVec 64

/-- `STATUS`, the 3-bit outcome code of a response (R60, R180). -/
abbrev StatusWord := BitVec 3

/-- A 5-bit maneuver-type code: all 32 values are legal operands (R32, R74). -/
abbrev TypeField := BitVec 5

/-- A 3-bit direction-modifier code: all 8 values are defined (R33). -/
abbrev ModField := BitVec 3

/-- An 8-bit circular-road-kind ordinal, 0 to 255 (R34). -/
abbrev KindOrdinal := BitVec 8

/-- A request on the command port: the two words a host sends (R60). -/
structure Request where
  cmd : CmdWord
  data : DataWord
deriving DecidableEq, Repr

/-- `ceil(a / b)` on naturals, as 00_scope.md R11 writes it. -/
def ceilDiv (a b : Nat) : Nat := (a + b - 1) / b

end Sys2Proof
end

