-- ==== Sys2Proof/Config.lean ====
section
/-! DEFINITION. The closed enumerations of 10_state.md section 4, the four parameters that are fixed
when the block is instantiated (00_scope.md R5 to R8), and the free values of the model.

The parameters are OPEN in the spec. `Params` is the type of an instantiation; `Config.params` is the one
the state after reset carries, made of opaque constants: nothing can be proved of them but that they are
legal. Every statement about a state holds for every parameter the state may carry. -/

namespace Sys2Proof

/-- `BIT_ORDER` (R6): which physical bit of a backing byte bit-in-byte number 0 names (R41), and which
value bit goes at an element's first offset (R43). -/
inductive BitOrder where
  | lsbFirst
  | msbFirst
deriving DecidableEq, Repr, Inhabited

/-- The sixteen named maneuver types (10_state.md R32). The source's other ten defined types have no name in
the spec: they are plain 5-bit codes that only MD_MAKE can produce. -/
inductive ManeuverType where
  | invalid
  | noTurn
  | suppressed
  | stayOnRoundabout
  | enterRoundabout
  | enterRotary
  | enterRoundaboutIntersection
  | exitRoundabout
  | exitRotary
  | exitRoundaboutIntersection
  | enterAndExitRoundabout
  | enterAndExitRotary
  | enterAndExitRoundaboutIntersection
  | enterRoundaboutAtExit
  | enterRotaryAtExit
  | enterRoundaboutIntersectionAtExit
deriving DecidableEq, Repr

/-- Every named maneuver type, in the order of R32. -/
def ManeuverType.all : List ManeuverType :=
  [.invalid, .noTurn, .suppressed, .stayOnRoundabout,
   .enterRoundabout, .enterRotary, .enterRoundaboutIntersection,
   .exitRoundabout, .exitRotary, .exitRoundaboutIntersection,
   .enterAndExitRoundabout, .enterAndExitRotary, .enterAndExitRoundaboutIntersection,
   .enterRoundaboutAtExit, .enterRotaryAtExit, .enterRoundaboutIntersectionAtExit]

/-- The eight direction modifiers (10_state.md R33). -/
inductive DirectionModifier where
  | uTurn
  | sharpRight
  | right
  | slightRight
  | straight
  | slightLeft
  | left
  | sharpLeft
deriving DecidableEq, Repr

/-- The code of each modifier (R33). The codes are fixed; they are no parameter (R9). -/
def DirectionModifier.code : DirectionModifier → ModField
  | .uTurn => 0
  | .sharpRight => 1
  | .right => 2
  | .slightRight => 3
  | .straight => 4
  | .slightLeft => 5
  | .left => 6
  | .sharpLeft => 7

/-- The circular-road kinds that have a table entry (10_state.md R34). -/
inductive RoadKind where
  | invalid
  | roundabout
  | rotary
  | roundaboutIntersection
deriving DecidableEq, Repr

/-- The ordinal of each kind (R34, R9). -/
def RoadKind.ordinal : RoadKind → KindOrdinal
  | .invalid => 0
  | .roundabout => 1
  | .rotary => 2
  | .roundaboutIntersection => 3

/-- `TypeCode` (R8) as plain data: the 5-bit code of each of the sixteen names of R32. -/
structure TypeCodes where
  invalid : TypeField
  noTurn : TypeField
  suppressed : TypeField
  stayOnRoundabout : TypeField
  enterRoundabout : TypeField
  enterRotary : TypeField
  enterRoundaboutIntersection : TypeField
  exitRoundabout : TypeField
  exitRotary : TypeField
  exitRoundaboutIntersection : TypeField
  enterAndExitRoundabout : TypeField
  enterAndExitRotary : TypeField
  enterAndExitRoundaboutIntersection : TypeField
  enterRoundaboutAtExit : TypeField
  enterRotaryAtExit : TypeField
  enterRoundaboutIntersectionAtExit : TypeField
deriving DecidableEq, Repr

/-- `TypeCode(label)` (R8, R32). -/
def TypeCodes.code (tc : TypeCodes) : ManeuverType → TypeField
  | .invalid => tc.invalid
  | .noTurn => tc.noTurn
  | .suppressed => tc.suppressed
  | .stayOnRoundabout => tc.stayOnRoundabout
  | .enterRoundabout => tc.enterRoundabout
  | .enterRotary => tc.enterRotary
  | .enterRoundaboutIntersection => tc.enterRoundaboutIntersection
  | .exitRoundabout => tc.exitRoundabout
  | .exitRotary => tc.exitRotary
  | .exitRoundaboutIntersection => tc.exitRoundaboutIntersection
  | .enterAndExitRoundabout => tc.enterAndExitRoundabout
  | .enterAndExitRotary => tc.enterAndExitRotary
  | .enterAndExitRoundaboutIntersection => tc.enterAndExitRoundaboutIntersection
  | .enterRoundaboutAtExit => tc.enterRoundaboutAtExit
  | .enterRotaryAtExit => tc.enterRotaryAtExit
  | .enterRoundaboutIntersectionAtExit => tc.enterRoundaboutIntersectionAtExit

/-- A TypeCode given as a function on the sixteen names. -/
def TypeCodes.ofFun (f : ManeuverType → TypeField) : TypeCodes where
  invalid := f .invalid
  noTurn := f .noTurn
  suppressed := f .suppressed
  stayOnRoundabout := f .stayOnRoundabout
  enterRoundabout := f .enterRoundabout
  enterRotary := f .enterRotary
  enterRoundaboutIntersection := f .enterRoundaboutIntersection
  exitRoundabout := f .exitRoundabout
  exitRotary := f .exitRotary
  exitRoundaboutIntersection := f .exitRoundaboutIntersection
  enterAndExitRoundabout := f .enterAndExitRoundabout
  enterAndExitRotary := f .enterAndExitRotary
  enterAndExitRoundaboutIntersection := f .enterAndExitRoundaboutIntersection
  enterRoundaboutAtExit := f .enterRoundaboutAtExit
  enterRotaryAtExit := f .enterRotaryAtExit
  enterRoundaboutIntersectionAtExit := f .enterRoundaboutIntersectionAtExit

/-- One instantiation of the block (R203): the four parameters of R5 to R8. `width` has the 7 bits that
10_state.md R23 gives WIDTH. Which values are legal is `Params.wellFormed` (WellFormed.lean). -/
structure Params where
  width : BitVec 7
  bitOrder : BitOrder
  maxCount : Nat
  typeCodes : TypeCodes
deriving DecidableEq, Repr

/-- `W` as a number (R5). -/
def Params.W (p : Params) : Nat := p.width.toNat

/-- OPEN parameter (R5): `W - 1`, so that every W in 1 to 64, and no other, is possible. Log entry 1. -/
opaque Config.widthLessOne : Fin 64

/-- OPEN parameter (R6). Log entry 2. -/
opaque Config.bitOrder : BitOrder

/-- OPEN parameter (R7): MAX_COUNT where it is at least 399. Log entry 3. -/
opaque Config.maxCountFree : BitVec 64

/-- OPEN parameter (R8): a one-to-one map of the 32 codes. A TypeCode is this map after a fixed numbering of
the names, so it is injective on the names by construction. Log entry 4. -/
opaque Config.typeCodeMap : Equiv.Perm TypeField

/-- FREE VALUE (20_memory.md R56, 70_reset_and_hazards.md R206): which of the hosts that have a command to
send the port takes next, at the n-th acceptance. The spec fixes no order between hosts. Log entry 12. -/
opaque Config.arbiter : Nat → Nat

/-- FREE VALUE: `zext_64(v)` where v needs more than 64 bits. R13 defines it for smaller v only, and with a
MAX_COUNT near 2^64 the length of BUF can need up to 67 bits. Log entry 9. -/
opaque Config.wideZext : Nat → DataWord

/-- The instantiation that the state after reset carries (R203). -/
def Config.params : Params where
  width := BitVec.ofNat 7 (Config.widthLessOne.val + 1)
  bitOrder := Config.bitOrder
  maxCount := max 399 Config.maxCountFree.toNat
  typeCodes := TypeCodes.ofFun fun l => Config.typeCodeMap (BitVec.ofNat 5 (ManeuverType.all.idxOf l))

end Sys2Proof
end

