-- ==== Sys2Proof/Assembly.lean ====
section
/-! DEFINITION. The assembler lines of 30_encoding.md R75 and R76 as abstract syntax: a mnemonic with the
operands as written, before any operand is checked against its field. `assemble` (Machine/Assembler.lean)
turns a line into a command or refuses it. -/

namespace Sys2Proof

/-- A T operand: a number, or a maneuver-type label, which stands for `TypeCode(label)` (R75). -/
inductive TOperand where
  | num (n : Nat)
  | label (l : ManeuverType)
deriving DecidableEq, Repr

/-- An M operand: a number, or a direction-modifier name of R33 (R75). -/
inductive MOperand where
  | num (n : Nat)
  | name (m : DirectionModifier)
deriving DecidableEq, Repr

/-- A K operand: a number, or a kind name of R34 (R75). -/
inductive KOperand where
  | num (n : Nat)
  | name (k : RoadKind)
deriving DecidableEq, Repr

/-- One assembler line (R75), or the pseudo-instruction `md.default` (R76). -/
inductive AsmLine where
  | seqInsert (v : Nat)
  | seqRetrieve (i : Nat)
  | seqSize
  | seqWidth
  | seqByteLen
  | seqByteRead (j : Nat)
  | mdInvalid
  | mdNoTurn
  | mdMake (t : TOperand) (m : MOperand)
  | mdRemain (k : KOperand) (m : MOperand)
  | mdEnter (k : KOperand) (m : MOperand)
  | mdExit (k : KOperand) (m : MOperand)
  | mdEnterAndExit (k : KOperand) (m : MOperand)
  | mdEnterAtExit (k : KOperand) (m : MOperand)
  | mdSuppressed (m : MOperand)
  | mdEq (d1 d2 : Nat)
  | mdNe (d1 d2 : Nat)
  | mdGetType (d : Nat)
  | mdGetModifier (d : Nat)
  | mdDefault
deriving DecidableEq, Repr

end Sys2Proof
end

