-- ==== Sys2Proof/Syntax.lean ====
section
/-! DEFINITION. The commands of the block: one constructor for each of the nineteen rows of
spec/opcode_table.json (30_encoding.md R69), with the operands R62 and R63 give it, each at its own width.

The DATA word is an operand of the three commands that read it. The others ignore it (R63). -/

namespace Sys2Proof

/-- A command with its operands. -/
inductive Instr where
  /-- SEQ_INSERT, `seq.insert v` (R101). -/
  | seqInsert (v : DataWord)
  /-- SEQ_RETRIEVE, `seq.retrieve i` (R103). -/
  | seqRetrieve (idx : DataWord)
  /-- SEQ_SIZE, `seq.size` (R105). -/
  | seqSize
  /-- SEQ_WIDTH, `seq.width` (R106). -/
  | seqWidth
  /-- SEQ_BYTE_LEN, `seq.bytelen` (R107). -/
  | seqByteLen
  /-- SEQ_BYTE_READ, `seq.byteread j` (R108). -/
  | seqByteRead (j : DataWord)
  /-- MD_INVALID, `md.invalid` (R143). -/
  | mdInvalid
  /-- MD_NO_TURN, `md.noturn` (R144). -/
  | mdNoTurn
  /-- MD_MAKE, `md.make t, m` (R145). -/
  | mdMake (t : TypeField) (m : ModField)
  /-- MD_REMAIN, `md.remain k, m` (R146). -/
  | mdRemain (k : KindOrdinal) (m : ModField)
  /-- MD_ENTER, `md.enter k, m` (R147). -/
  | mdEnter (k : KindOrdinal) (m : ModField)
  /-- MD_EXIT, `md.exit k, m` (R148). -/
  | mdExit (k : KindOrdinal) (m : ModField)
  /-- MD_ENTER_AND_EXIT, `md.enterexit k, m` (R149). -/
  | mdEnterAndExit (k : KindOrdinal) (m : ModField)
  /-- MD_ENTER_AT_EXIT, `md.enteratexit k, m` (R150). -/
  | mdEnterAtExit (k : KindOrdinal) (m : ModField)
  /-- MD_SUPPRESSED, `md.suppressed m` (R151). -/
  | mdSuppressed (m : ModField)
  /-- MD_EQ, `md.eq d1, d2` (R153). -/
  | mdEq (d1 d2 : Byte)
  /-- MD_NE, `md.ne d1, d2` (R154). -/
  | mdNe (d1 d2 : Byte)
  /-- MD_GET_TYPE, `md.gettype d` (R155). -/
  | mdGetType (d1 : Byte)
  /-- MD_GET_MODIFIER, `md.getmod d` (R156). -/
  | mdGetModifier (d1 : Byte)
deriving DecidableEq, Repr

end Sys2Proof
end

