-- ==== Sys2Proof/WellFormed.lean ====
section
/-! DEFINITION. The checks on what is written down before a machine runs: the parameters of an
instantiation (00_scope.md R5 to R8) and the operands of an assembler line (30_encoding.md R75).

An `Instr` needs no check: each operand has the width of its field (R63), so every `Instr` is well formed. -/

namespace Sys2Proof

/-- `1 <= W <= 64` (R5). -/
def Params.widthLegal (p : Params) : Bool := decide (1 ≤ p.W) && decide (p.W ≤ 64)

/-- `399 <= MAX_COUNT < 2^64` (R7, 92_eei_decisions.md D9). -/
def Params.maxCountLegal (p : Params) : Bool := decide (399 ≤ p.maxCount) && decide (p.maxCount < 2 ^ 64)

/-- TypeCode gives different names different codes (R8). -/
def TypeCodes.injective (tc : TypeCodes) : Bool := decide (ManeuverType.all.map tc.code).Nodup

/-- The parameters of a block that exists (R5, R7, R8). BIT_ORDER has no illegal value. -/
def Params.wellFormed (p : Params) : Bool :=
  p.widthLegal && p.maxCountLegal && p.typeCodes.injective

/-- A T operand fits its 5 bits (R75). -/
def TOperand.fits : TOperand → Bool
  | .num n => decide (n ≤ 31)
  | .label _ => true

/-- An M operand fits its 3 bits (R75). -/
def MOperand.fits : MOperand → Bool
  | .num n => decide (n ≤ 7)
  | .name _ => true

/-- A K operand fits its 8 bits (R75). -/
def KOperand.fits : KOperand → Bool
  | .num n => decide (n ≤ 255)
  | .name _ => true

/-- A D operand fits its 8 bits (R75). -/
def descriptorFits (d : Nat) : Bool := decide (d ≤ 255)

/-- A DATA operand fits its 64 bits (R75). -/
def dataFits (v : Nat) : Bool := decide (v ≤ 2 ^ 64 - 1)

/-- Every operand of an assembler line fits its field (R75). -/
def AsmLine.wellFormed : AsmLine → Bool
  | .seqInsert v => dataFits v
  | .seqRetrieve i => dataFits i
  | .seqSize => true
  | .seqWidth => true
  | .seqByteLen => true
  | .seqByteRead j => dataFits j
  | .mdInvalid => true
  | .mdNoTurn => true
  | .mdMake t m => t.fits && m.fits
  | .mdRemain k m => k.fits && m.fits
  | .mdEnter k m => k.fits && m.fits
  | .mdExit k m => k.fits && m.fits
  | .mdEnterAndExit k m => k.fits && m.fits
  | .mdEnterAtExit k m => k.fits && m.fits
  | .mdSuppressed m => m.fits
  | .mdEq d1 d2 => descriptorFits d1 && descriptorFits d2
  | .mdNe d1 d2 => descriptorFits d1 && descriptorFits d2
  | .mdGetType d => descriptorFits d
  | .mdGetModifier d => descriptorFits d
  | .mdDefault => true

end Sys2Proof
end

