-- ==== Sys2Proof/Decode.lean ====
section
/-! DEFINITION. The decoder of 30_encoding.md R70 over the opcode map of R69, and the encoder beside it
(the CMD and DATA columns of R75). The decoder is total: a command word is a command of the map, or it is
rejected by name. -/

namespace Sys2Proof

/-- Why a command word is no command. Both raise IllegalCommand (R70). -/
inductive DecodeError where
  /-- No row of R69 has this opcode (R71). -/
  | unassignedOpcode
  /-- The opcode is assigned, and a reserved bit of its format is 1 (R72). -/
  | reservedBitSet
deriving DecidableEq, Repr

/-- The seven formats of R62. -/
inductive Format where
  | S
  | N
  | TM
  | KM
  | M
  | D
  | DD
deriving DecidableEq, Repr

/-- `ReservedMask(f)` (R70): a 1 at each reserved bit of the format. -/
def Format.reservedMask : Format → CmdWord
  | .S => 0xFFFFFF00
  | .N => 0xFFFFFF00
  | .TM => 0xFFFF0000
  | .KM => 0xFF001F00
  | .M => 0xFFFF1F00
  | .D => 0xFFFF0000
  | .DD => 0xFF000000

/-- `OP = CMD[7:0]` (R61). -/
def fieldOp (cmd : CmdWord) : Byte := cmd.extractLsb' 0 8

/-- `T = CMD[12:8]` (R63). -/
def fieldT (cmd : CmdWord) : TypeField := cmd.extractLsb' 8 5

/-- `M = CMD[15:13]` (R63). -/
def fieldM (cmd : CmdWord) : ModField := cmd.extractLsb' 13 3

/-- `K = CMD[23:16]` (R63). -/
def fieldK (cmd : CmdWord) : KindOrdinal := cmd.extractLsb' 16 8

/-- `D1 = CMD[15:8]` (R63). -/
def fieldD1 (cmd : CmdWord) : Byte := cmd.extractLsb' 8 8

/-- `D2 = CMD[23:16]` (R63). -/
def fieldD2 (cmd : CmdWord) : Byte := cmd.extractLsb' 16 8

/-- One row of the opcode map: the opcode, its format, and the command with its operands taken from the
request's two words. -/
structure OpcodeRow where
  op : Byte
  format : Format
  build : CmdWord → DataWord → Instr

/-- The opcode map (R69). -/
def opcodeMap : List OpcodeRow :=
  [⟨0x01, .S, fun _ data => .seqInsert data⟩,
   ⟨0x02, .S, fun _ data => .seqRetrieve data⟩,
   ⟨0x03, .S, fun _ _ => .seqSize⟩,
   ⟨0x04, .S, fun _ _ => .seqWidth⟩,
   ⟨0x05, .S, fun _ _ => .seqByteLen⟩,
   ⟨0x06, .S, fun _ data => .seqByteRead data⟩,
   ⟨0x10, .N, fun _ _ => .mdInvalid⟩,
   ⟨0x11, .N, fun _ _ => .mdNoTurn⟩,
   ⟨0x12, .TM, fun cmd _ => .mdMake (fieldT cmd) (fieldM cmd)⟩,
   ⟨0x13, .KM, fun cmd _ => .mdRemain (fieldK cmd) (fieldM cmd)⟩,
   ⟨0x14, .KM, fun cmd _ => .mdEnter (fieldK cmd) (fieldM cmd)⟩,
   ⟨0x15, .KM, fun cmd _ => .mdExit (fieldK cmd) (fieldM cmd)⟩,
   ⟨0x16, .KM, fun cmd _ => .mdEnterAndExit (fieldK cmd) (fieldM cmd)⟩,
   ⟨0x17, .KM, fun cmd _ => .mdEnterAtExit (fieldK cmd) (fieldM cmd)⟩,
   ⟨0x18, .M, fun cmd _ => .mdSuppressed (fieldM cmd)⟩,
   ⟨0x19, .DD, fun cmd _ => .mdEq (fieldD1 cmd) (fieldD2 cmd)⟩,
   ⟨0x1A, .DD, fun cmd _ => .mdNe (fieldD1 cmd) (fieldD2 cmd)⟩,
   ⟨0x1B, .D, fun cmd _ => .mdGetType (fieldD1 cmd)⟩,
   ⟨0x1C, .D, fun cmd _ => .mdGetModifier (fieldD1 cmd)⟩]

/-- The row of R69 whose OP is this opcode, if there is one. -/
def opcodeRow (op : Byte) : Option OpcodeRow := opcodeMap.find? fun row => row.op == op

/-- `Decode(CMD)` (R70): the opcode's row, then its reserved bits, then its operands. -/
def decode (req : Request) : Except DecodeError Instr :=
  match opcodeRow (fieldOp req.cmd) with
  | none => .error .unassignedOpcode
  | some row =>
    if req.cmd &&& row.format.reservedMask = 0 then .ok (row.build req.cmd req.data)
    else .error .reservedBitSet

/-- `(t << 8) | (m << 13) | op` (R75, format TM). -/
def cmdTM (op : Byte) (t : TypeField) (m : ModField) : CmdWord :=
  m.setWidth 32 <<< 13 ||| t.setWidth 32 <<< 8 ||| op.setWidth 32

/-- `(k << 16) | (m << 13) | op` (R75, format KM). -/
def cmdKM (op : Byte) (k : KindOrdinal) (m : ModField) : CmdWord :=
  k.setWidth 32 <<< 16 ||| m.setWidth 32 <<< 13 ||| op.setWidth 32

/-- `(m << 13) | op` (R75, format M). -/
def cmdM (op : Byte) (m : ModField) : CmdWord := m.setWidth 32 <<< 13 ||| op.setWidth 32

/-- `(d << 8) | op` (R75, format D). -/
def cmdD (op : Byte) (d1 : Byte) : CmdWord := d1.setWidth 32 <<< 8 ||| op.setWidth 32

/-- `(d2 << 16) | (d1 << 8) | op` (R75, format DD). -/
def cmdDD (op : Byte) (d1 d2 : Byte) : CmdWord :=
  d2.setWidth 32 <<< 16 ||| d1.setWidth 32 <<< 8 ||| op.setWidth 32

/-- The request of a command (R75): DATA is 0 for a command that ignores it. -/
def encode : Instr → Request
  | .seqInsert v => ⟨0x01, v⟩
  | .seqRetrieve idx => ⟨0x02, idx⟩
  | .seqSize => ⟨0x03, 0⟩
  | .seqWidth => ⟨0x04, 0⟩
  | .seqByteLen => ⟨0x05, 0⟩
  | .seqByteRead j => ⟨0x06, j⟩
  | .mdInvalid => ⟨0x10, 0⟩
  | .mdNoTurn => ⟨0x11, 0⟩
  | .mdMake t m => ⟨cmdTM 0x12 t m, 0⟩
  | .mdRemain k m => ⟨cmdKM 0x13 k m, 0⟩
  | .mdEnter k m => ⟨cmdKM 0x14 k m, 0⟩
  | .mdExit k m => ⟨cmdKM 0x15 k m, 0⟩
  | .mdEnterAndExit k m => ⟨cmdKM 0x16 k m, 0⟩
  | .mdEnterAtExit k m => ⟨cmdKM 0x17 k m, 0⟩
  | .mdSuppressed m => ⟨cmdM 0x18 m, 0⟩
  | .mdEq d1 d2 => ⟨cmdDD 0x19 d1 d2, 0⟩
  | .mdNe d1 d2 => ⟨cmdDD 0x1A d1 d2, 0⟩
  | .mdGetType d1 => ⟨cmdD 0x1B d1, 0⟩
  | .mdGetModifier d1 => ⟨cmdD 0x1C d1, 0⟩

/-- Whether the command reads the DATA word (R63): the value of SEQ_INSERT, the index of SEQ_RETRIEVE, the
byte index of SEQ_BYTE_READ. -/
def Instr.readsData : Instr → Bool
  | .seqInsert _ => true
  | .seqRetrieve _ => true
  | .seqByteRead _ => true
  | .seqSize => false
  | .seqWidth => false
  | .seqByteLen => false
  | .mdInvalid => false
  | .mdNoTurn => false
  | .mdMake _ _ => false
  | .mdRemain _ _ => false
  | .mdEnter _ _ => false
  | .mdExit _ _ => false
  | .mdEnterAndExit _ _ => false
  | .mdEnterAtExit _ _ => false
  | .mdSuppressed _ => false
  | .mdEq _ _ => false
  | .mdNe _ _ => false
  | .mdGetType _ => false
  | .mdGetModifier _ => false

/-- The request whose bits are the low `nbits` bits of `w`, every bit above them 0: CMD is bits 31..0, the
first word, and DATA is bits 95..32, the word after it (R68). Log entry 17. -/
def requestOfBits (nbits w : Nat) : Request :=
  ⟨BitVec.ofNat 32 (w % 2 ^ nbits), BitVec.ofNat 64 (w % 2 ^ nbits / 2 ^ 32)⟩

/-- The command the decoder reads from an instruction whose bits are `w`, as spec/opcode_table.json numbers
them; none where it rejects it. -/
def decodeTableWord (nbits w : Nat) : Option Instr :=
  match decode (requestOfBits nbits w) with
  | .ok i => some i
  | .error _ => none

end Sys2Proof
end

