-- ==== Sys2Proof/Machine/State.lean ====
section
/-! DEFINITION. The state of the block (10_state.md), the reasons a step can stop, and the state after reset
(10_state.md R35, 70_reset_and_hazards.md R200).

The block has no general registers, no program counter and no other register file (R20 to R22), and the MD
unit holds no state (R30). What it has is the SEQ unit's WIDTH, COUNT and BUF (R23), its command port (R60)
and its reset input (R200). The hosts are outside the block: `agents` holds what they still want to send and
what they have received, so that a run of several hosts is a run of this machine (R56, R209). -/

namespace Sys2Proof.Machine

/-- BUF, the backing bytes (R23), which is the only address space (R31): byte indices 0 to `len - 1`. `cells`
lists the bytes that are not zero, addresses rising; a byte of BUF that is not listed is zero, the value
with which every byte is appended (R14, R45). Log entry 7. -/
structure Memory where
  len : Nat
  cells : List Host.Cell
deriving DecidableEq, Repr

/-- A response: the two words the block answers with (R60). -/
structure Response where
  status : StatusWord
  result : DataWord
deriving DecidableEq, Repr

/-- A command a host will send, and the host-side synchronization it waits for (R56, R205): it is sent only after
each host named in `after` has received that many responses. Log entry 30. -/
structure Send where
  request : Request
  after : List (Nat × Nat)
deriving DecidableEq, Repr

/-- A host agent, outside the block (R56, R192): the commands it will send, in its issue order, and the
responses it has received, oldest first (R209). -/
structure Agent where
  issue : List Send
  received : List Response
deriving DecidableEq, Repr

/-- The machine. `params`, `count` and `buf` are the SEQ unit's state with the other parameters of the
instantiation, which no step writes (R203; log entry 5); `request`, `response` and `resetIn` are the port
and the reset input; `agents`, `owner` and `turn` are the hosts' side of the port (log entry 12). -/
structure State where
  /-- The parameters of this instantiation: WIDTH (R23) and the constants of R6 to R8. -/
  params : Params
  /-- COUNT, the number of elements held (R23). -/
  count : Nat
  /-- BUF, the backing bytes (R23). -/
  buf : Memory
  /-- The outstanding request, if there is one (R60). -/
  request : Option Request
  /-- The pending response, if there is one (R60, R35). -/
  response : Option Response
  /-- The reset input (R200): true while a reset is asserted and not yet performed. Log entry 14. -/
  resetIn : Bool
  /-- The hosts (R56). -/
  agents : List Agent
  /-- Which of `agents` sent the command the port holds; none where it is a host that is not listed. -/
  owner : Option Nat
  /-- How many commands the port has taken from `agents`: the argument of the free arbiter. -/
  turn : Nat
deriving DecidableEq, Repr

/-- Why a step stops. -/
inductive Fault where
  /-- SEQ_RETRIEVE reads a byte index at or beyond `len(BUF)`, which the spec says does not exist (R31).
  Only a state that breaks the length invariant (R24) raises it, and no run reaches one. Safe: the
  model stops where the spec gives no value. Log entry 8. -/
  | absentByte
deriving DecidableEq, Repr

/-- Why an instruction has no meaning. -/
inductive Refusal where
  /-- The instruction has no meaning in this model yet. No arm of `exec` raises it: every instruction of
  the table has its meaning. Safe. -/
  | notModelled (mnemonic : String)
deriving DecidableEq, Repr

/-- Every listed address is at least `lo` and below `len`, addresses rise strictly, and no listed byte is
zero. -/
def cellsWf (len : Nat) : Nat → List Host.Cell → Bool
  | _, [] => true
  | lo, (a, v) :: cs => decide (lo ≤ a) && decide (a < len) && decide (v ≠ 0#8) && cellsWf len (a + 1) cs

/-- The canonical form of a memory: equal memories are equal data. -/
def Memory.wf (m : Memory) : Bool := cellsWf m.len 0 m.cells

/-- BUF with no bytes (R35). -/
def Memory.empty : Memory := ⟨0, []⟩

/-- The state after reset of a block with these parameters (R35, R200): COUNT is 0, BUF holds no bytes, no
request is outstanding, no response is pending. No host has anything to send yet. -/
def State.resetOf (p : Params) : State where
  params := p
  count := 0
  buf := Memory.empty
  request := none
  response := none
  resetIn := false
  agents := []
  owner := none
  turn := 0

/-- Instantiating the block (R203): with illegal parameters there is no such block (R5, R7, R8). -/
def State.instantiate (p : Params) : Option State :=
  if p.wellFormed then some (State.resetOf p) else none

/-- The machine right after reset, with the instantiation's own open parameters. -/
def State.reset : State := State.resetOf Config.params

/-- `W` (R5). -/
def State.W (s : State) : Nat := s.params.W

end Sys2Proof.Machine
end

