-- ==== Sys2Proof/Machine/Flags.lean ====
section
/-! DEFINITION. STATUS, the only flag of the block (60_exceptions.md R180): its codes, and the checks of the
three commands that can fail, in the priority of R182. -/

namespace Sys2Proof.Machine

/-- The outcomes a command reports (R180). -/
inductive Status where
  | ok
  | rangeError
  | capacityError
  | storageExhausted
  | illegalCommand
deriving DecidableEq, Repr

/-- The 3-bit code of each outcome (R180). Codes 5 to 7 are never produced. -/
def Status.code : Status → StatusWord
  | .ok => 0
  | .rangeError => 1
  | .capacityError => 2
  | .storageExhausted => 3
  | .illegalCommand => 4

/-- SEQ_INSERT's checks (R101): the width of the value first, then the count (R182). -/
def State.insertStatus (s : State) (v : DataWord) : Status :=
  if 2 ^ s.W ≤ v.toNat then .capacityError
  else if s.count = s.params.maxCount then .storageExhausted
  else .ok

/-- SEQ_RETRIEVE's check (R103), on the full 64-bit index. -/
def State.retrieveStatus (s : State) (idx : DataWord) : Status :=
  if s.count ≤ idx.toNat then .rangeError else .ok

/-- SEQ_BYTE_READ's check (R108). -/
def State.byteReadStatus (s : State) (j : DataWord) : Status :=
  if s.buf.len ≤ j.toNat then .rangeError else .ok

end Sys2Proof.Machine
end

