-- ==== Sys2Proof/Machine/Operands.lean ====
section
/-! DEFINITION. The operands of the MD unit: the descriptor byte and its fields (30_encoding.md R64, R65), the
four lookup tables (41_maneuver_descriptor.md R141) and the bounds-checked lookup (R142), and the zero
extension of every result (R63). -/

namespace Sys2Proof.Machine

/-- `Desc(t, m) = (m << 5) | t` (R64). -/
def desc (t : TypeField) (m : ModField) : Byte := m.setWidth 8 <<< 5 ||| t.setWidth 8

/-- `TypeOf(d) = d[4:0]` (R65). -/
def typeOf (d : Byte) : TypeField := d.extractLsb' 0 5

/-- `ModOf(d) = d[7:5]` (R65). -/
def modOf (d : Byte) : ModField := d.extractLsb' 5 3

/-- `zext_64` (R13, R63): every result is zero-extended. -/
def zext64 {n : Nat} (v : BitVec n) : DataWord := v.setWidth 64

/-- `zext_64` of a natural number (R105, R107): the number itself below 2^64; above, a free value. -/
def zext64Nat (n : Nat) : DataWord := if n < 2 ^ 64 then BitVec.ofNat 64 n else Config.wideZext n

/-- The names of the four lookup tables (R141). -/
inductive RoadTable where
  | enter
  | exit
  | enterAndExit
  | enterAtExit
deriving DecidableEq, Repr

/-- `Table_X[k]` as a name (R141). -/
def tableEntry : RoadTable → RoadKind → ManeuverType
  | _, .invalid => .invalid
  | .enter, .roundabout => .enterRoundabout
  | .enter, .rotary => .enterRotary
  | .enter, .roundaboutIntersection => .enterRoundaboutIntersection
  | .exit, .roundabout => .exitRoundabout
  | .exit, .rotary => .exitRotary
  | .exit, .roundaboutIntersection => .exitRoundaboutIntersection
  | .enterAndExit, .roundabout => .enterAndExitRoundabout
  | .enterAndExit, .rotary => .enterAndExitRotary
  | .enterAndExit, .roundaboutIntersection => .enterAndExitRoundaboutIntersection
  | .enterAtExit, .roundabout => .enterRoundaboutAtExit
  | .enterAtExit, .rotary => .enterRotaryAtExit
  | .enterAtExit, .roundaboutIntersection => .enterRoundaboutIntersectionAtExit

/-- The kind an ordinal names, if it names one (R34): ordinals 4 to 255 are out of range. -/
def kindOfOrdinal (k : KindOrdinal) : Option RoadKind :=
  match k.toNat with
  | 0 => some .invalid
  | 1 => some .roundabout
  | 2 => some .rotary
  | 3 => some .roundaboutIntersection
  | _ => none

/-- `Lookup(X, K)` (R142): an ordinal with no table entry gives the Invalid type. -/
def lookup (tc : TypeCodes) (x : RoadTable) (k : KindOrdinal) : TypeField :=
  match kindOfOrdinal k with
  | some kind => tc.code (tableEntry x kind)
  | none => tc.code .invalid

/-- Equality of two descriptors, field by field (R153), as a truth value of 64 bits. -/
def descEq (d1 d2 : Byte) : DataWord :=
  if typeOf d1 = typeOf d2 ∧ modOf d1 = modOf d2 then 1 else 0

end Sys2Proof.Machine
end

