-- ==== Sys2Proof/Machine/Ops.lean ====
section
/-! DEFINITION. The operations the meanings share: the backing buffer (00_scope.md R14), its bit layout
(20_memory.md R40 to R45), the response of a command (R15), and what happens at the port between commands
(R55, R56, R60) and at the reset input (R200, R202).

`State.raise` stands where another machine has the entry of an exception. The block takes no traps: an error
is a STATUS in the response, it saves nothing and changes no state (R181, R183, R185), and there is nothing to
return from (R186). -/

namespace Sys2Proof.Machine

/-! ### Bytes of BUF -/

/-- The byte a list of cells gives an address: zero where none is listed. -/
def cellsRead : List Host.Cell → Nat → Byte
  | [], _ => 0#8
  | (a, v) :: cs, j => if j = a then v else cellsRead cs j

/-- Writing a byte into a list of cells, keeping the canonical form: a zero removes the cell. -/
def cellsWrite : List Host.Cell → Nat → Byte → List Host.Cell
  | [], j, x => if x = 0#8 then [] else [(j, x)]
  | (a, v) :: cs, j, x =>
    if j < a then (if x = 0#8 then (a, v) :: cs else (j, x) :: (a, v) :: cs)
    else if j = a then (if x = 0#8 then cs else (j, x) :: cs)
    else (a, v) :: cellsWrite cs j x

/-- `MemRead(j, 1)` (R14). The commands read existing bytes only: SEQ_BYTE_READ and SEQ_RETRIEVE check. -/
def Memory.read (m : Memory) (j : Nat) : Byte := cellsRead m.cells j

/-- `MemWrite(j, 1, x)` (R14). SEQ_INSERT appends the bytes it writes first, so it writes existing bytes only;
a byte that does not exist is not written. -/
def Memory.write (m : Memory) (j : Nat) (x : Byte) : Memory :=
  if j < m.len then { m with cells := cellsWrite m.cells j x } else m

/-- `append_zero_byte(BUF)` (R14). -/
def Memory.appendZeroByte (m : Memory) : Memory := { m with len := m.len + 1 }

/-- `append_zero_byte` done `n` times. -/
def Memory.appendZeroBytes : Nat → Memory → Memory
  | 0, m => m
  | n + 1, m => Memory.appendZeroBytes n m.appendZeroByte

/-- `while len(BUF) < n: append_zero_byte(BUF)` (R101). -/
def Memory.growTo (m : Memory) (n : Nat) : Memory := m.appendZeroBytes (n - m.len)

/-! ### Bits of BUF -/

/-- `PhysBit(b)` (R41): the byte index and the bit position in that byte. -/
def physBit (o : BitOrder) (b : Nat) : Nat × Nat :=
  match o with
  | .lsbFirst => (b / 8, b % 8)
  | .msbFirst => (b / 8, 7 - b % 8)

/-- `GetBit(b)` (R42). -/
def Memory.getBit (m : Memory) (o : BitOrder) (b : Nat) : Bool :=
  (m.read (physBit o b).1).getLsbD (physBit o b).2

/-- `SetBit(b, x)` (R42): one bit of the byte changes, the other seven are kept. -/
def Memory.setBit (m : Memory) (o : BitOrder) (b : Nat) (x : Bool) : Memory :=
  let p := physBit o b
  m.write p.1 (m.read p.1 &&& (0xFF - 1#8 <<< p.2) ||| (BitVec.ofBool x).setWidth 8 <<< p.2)

/-- `ValueBit(v, k)` (R43): the bit of the value stored at the element's offset k. -/
def valueBit (o : BitOrder) (w : Nat) (v : DataWord) (k : Nat) : Bool :=
  match o with
  | .lsbFirst => v.getLsbD k
  | .msbFirst => v.getLsbD (w - 1 - k)

/-- Where the bit read at offset k goes in the value (R44). -/
def valuePos (o : BitOrder) (w k : Nat) : Nat :=
  match o with
  | .lsbFirst => k
  | .msbFirst => w - 1 - k

/-- The loop of `Elem(i)` (R44), its first `n` rounds. -/
def Memory.elemLoop (m : Memory) (o : BitOrder) (w i : Nat) : Nat → DataWord
  | 0 => 0
  | k + 1 =>
    m.elemLoop o w i k |||
      (BitVec.ofBool (m.getBit o (i * w + k))).setWidth 64 <<< valuePos o w k

/-- `Elem(i)` (R44): the value of element i, a function of BUF. -/
def Memory.elem (m : Memory) (o : BitOrder) (w i : Nat) : DataWord := m.elemLoop o w i w

/-- The loop of SEQ_INSERT (R101), its first `n` rounds: the value's bits at the element's own offsets. -/
def Memory.writeElem (m : Memory) (o : BitOrder) (w i : Nat) (v : DataWord) : Nat → Memory
  | 0 => m
  | k + 1 => (m.writeElem o w i v k).setBit o (i * w + k) (valueBit o w v k)

/-- BUF after element i is appended (R101): the zero bytes it needs, then its W bits. -/
def Memory.appendElem (m : Memory) (o : BitOrder) (w i : Nat) (v : DataWord) : Memory :=
  (m.growTo (ceilDiv ((i + 1) * w) 8)).writeElem o w i v w

/-! ### Elements of SEQ -/

/-- The value of element i of the machine (R44). -/
def State.elem (s : State) (i : Nat) : DataWord := s.buf.elem s.params.bitOrder s.W i

/-- Every byte that holds a bit of element i exists (R31, R40). -/
def State.elemPresent (s : State) (i : Nat) : Bool := decide ((i + 1) * s.W ≤ 8 * s.buf.len)

/-- The elements held, in index order (R23). -/
def State.elems (s : State) : List DataWord := (List.range s.count).map s.elem

/-- The payload of a persisted sequence (R59): the bytes of BUF in index order. -/
def State.payload (s : State) : List Byte := (List.range s.buf.len).map s.buf.read

/-- Bit `b` of the backing bitstream (R40, R42). -/
def State.bit (s : State) (b : Nat) : Bool := s.buf.getBit s.params.bitOrder b

/-- The state part of a successful SEQ_INSERT (R101). -/
def State.appendElem (s : State) (v : DataWord) : State :=
  { s with count := s.count + 1, buf := s.buf.appendElem s.params.bitOrder s.W s.count v }

/-! ### Ending a command -/

/-- The command's one response goes to the port, and its request is no longer outstanding (R15, R60). -/
def State.answer (s : State) (st : Status) (r : DataWord) : State :=
  { s with request := none, response := some ⟨st.code, r⟩ }

/-- `respond(OK, r)` (R15). -/
def State.respond (s : State) (r : DataWord) : State := s.answer .ok r

/-- `raise <Error>` (R15, R183): the error's code, RESULT 0, and no change to any state. -/
def State.raise (s : State) (e : Status) : State := s.answer e 0

/-! ### The port between commands, and reset -/

/-- Reset (R200): COUNT 0, BUF empty, no request outstanding and no response pending, so that a command it
interrupts gives no response (R202). The parameters stay; the hosts are outside the block. The
assertion is consumed (log entry 14). -/
def State.blockReset (s : State) : State :=
  { s with
    count := 0, buf := Memory.empty, request := none, response := none, resetIn := false, owner := none }

/-- The host that sent the command receives its response (R60, R209). -/
def State.deliver (s : State) (r : Response) : State :=
  { s with
    response := none
    owner := none
    agents :=
      match s.owner with
      | some h => s.agents.modify h fun a => { a with received := a.received ++ [r] }
      | none => s.agents }

/-- What host `h` will send, in its issue order. -/
def State.sendsOf (s : State) (h : Nat) : List Send :=
  match s.agents[h]? with
  | some a => a.issue
  | none => []

/-- The responses host `h` has received, oldest first. -/
def State.receivedOf (s : State) (h : Nat) : List Response :=
  match s.agents[h]? with
  | some a => a.received
  | none => []

/-- The synchronization this command waits for has happened (R56, R205; log entry 30). -/
def State.synced (s : State) (x : Send) : Bool :=
  x.after.all fun p => decide (p.2 ≤ (s.receivedOf p.1).length)

/-- Host `h` has a command to send and waits for no other host. -/
def State.maySend (s : State) (h : Nat) : Bool :=
  match s.sendsOf h with
  | x :: _ => s.synced x
  | [] => false

/-- The hosts that may send now. -/
def State.ready (s : State) : List Nat := (List.range s.agents.length).filter s.maySend

/-- Host `h` sends the next command of its issue order, and the block accepts it (R55, R60). -/
def State.acceptFrom (s : State) (h : Nat) : State :=
  match s.agents[h]? with
  | some ⟨x :: rest, received⟩ =>
    { s with
      request := some x.request
      owner := some h
      turn := s.turn + 1
      agents := s.agents.set h ⟨rest, received⟩ }
  | _ => s

/-- The port is free: it takes the next command of one of the hosts that may send, which of them being open
(R56); with none it waits (R201). -/
def State.acceptNext (arbiter : Nat → Nat) (s : State) : State :=
  match s.ready[arbiter s.turn % s.ready.length]? with
  | some h => s.acceptFrom h
  | none => s

end Sys2Proof.Machine
end

