-- ==== Sys2Proof/Machine/Md.lean ====
section
/-! DEFINITION. The meanings of the thirteen MD commands (41_maneuver_descriptor.md R140 to R156). Each answers
OK with a value of its operands and the TypeCode parameter alone. -/

namespace Sys2Proof.Machine

/-- Answer with a descriptor byte (R63, R66, R140). -/
def State.respondDesc (s : State) (t : TypeField) (m : ModField) : State := s.respond (zext64 (desc t m))

/-- `TypeCode(label)` of the machine's instantiation (R8). -/
def State.typeCode (s : State) (l : ManeuverType) : TypeField := s.params.typeCodes.code l

/-- `Lookup(X, K)` of the machine's instantiation (R142). -/
def State.lookup (s : State) (x : RoadTable) (k : KindOrdinal) : TypeField :=
  Machine.lookup s.params.typeCodes x k

/-- MD_INVALID (R143). -/
def execMdInvalid (s : State) : Host.Outcome State Fault Refusal :=
  .next (s.respondDesc (s.typeCode .invalid) DirectionModifier.uTurn.code)

/-- MD_NO_TURN (R144). -/
def execMdNoTurn (s : State) : Host.Outcome State Fault Refusal :=
  .next (s.respondDesc (s.typeCode .noTurn) DirectionModifier.uTurn.code)

/-- MD_MAKE (R145). -/
def execMdMake (t : TypeField) (m : ModField) (s : State) : Host.Outcome State Fault Refusal :=
  .next (s.respondDesc t m)

/-- MD_REMAIN (R146): the kind is accepted and does not matter (90_conflicts.md C1). -/
def execMdRemain (_k : KindOrdinal) (m : ModField) (s : State) : Host.Outcome State Fault Refusal :=
  .next (s.respondDesc (s.typeCode .stayOnRoundabout) m)

/-- MD_ENTER (R147). -/
def execMdEnter (k : KindOrdinal) (m : ModField) (s : State) : Host.Outcome State Fault Refusal :=
  .next (s.respondDesc (s.lookup .enter k) m)

/-- MD_EXIT (R148). -/
def execMdExit (k : KindOrdinal) (m : ModField) (s : State) : Host.Outcome State Fault Refusal :=
  .next (s.respondDesc (s.lookup .exit k) m)

/-- MD_ENTER_AND_EXIT (R149). -/
def execMdEnterAndExit (k : KindOrdinal) (m : ModField) (s : State) : Host.Outcome State Fault Refusal :=
  .next (s.respondDesc (s.lookup .enterAndExit k) m)

/-- MD_ENTER_AT_EXIT (R150). -/
def execMdEnterAtExit (k : KindOrdinal) (m : ModField) (s : State) : Host.Outcome State Fault Refusal :=
  .next (s.respondDesc (s.lookup .enterAtExit k) m)

/-- MD_SUPPRESSED (R151). -/
def execMdSuppressed (m : ModField) (s : State) : Host.Outcome State Fault Refusal :=
  .next (s.respondDesc (s.typeCode .suppressed) m)

/-- MD_EQ (R153). -/
def execMdEq (d1 d2 : Byte) (s : State) : Host.Outcome State Fault Refusal :=
  .next (s.respond (descEq d1 d2))

/-- MD_NE (R154): one less MD_EQ's result. -/
def execMdNe (d1 d2 : Byte) (s : State) : Host.Outcome State Fault Refusal :=
  .next (s.respond (1 - descEq d1 d2))

/-- MD_GET_TYPE (R155). -/
def execMdGetType (d1 : Byte) (s : State) : Host.Outcome State Fault Refusal :=
  .next (s.respond (zext64 (typeOf d1)))

/-- MD_GET_MODIFIER (R156). -/
def execMdGetModifier (d1 : Byte) (s : State) : Host.Outcome State Fault Refusal :=
  .next (s.respond (zext64 (modOf d1)))

end Sys2Proof.Machine
end

