-- ==== Sys2Proof/Machine/Seq.lean ====
section
/-! DEFINITION. The meanings of the six SEQ commands (40_packed_sequence.md R100 to R108). -/

namespace Sys2Proof.Machine

/-- SEQ_INSERT (R101). -/
def execSeqInsert (v : DataWord) (s : State) : Host.Outcome State Fault Refusal :=
  .next (if s.insertStatus v = .ok then (s.appendElem v).respond 0 else s.raise (s.insertStatus v))

/-- SEQ_RETRIEVE (R103). The fault is for states that break the length invariant (R24, R31). -/
def execSeqRetrieve (idx : DataWord) (s : State) : Host.Outcome State Fault Refusal :=
  if s.retrieveStatus idx = .ok then
    if s.elemPresent idx.toNat then .next (s.respond (s.elem idx.toNat)) else .fault .absentByte
  else .next (s.raise (s.retrieveStatus idx))

/-- SEQ_SIZE (R105). -/
def execSeqSize (s : State) : Host.Outcome State Fault Refusal :=
  .next (s.respond (zext64Nat s.count))

/-- SEQ_WIDTH (R106). -/
def execSeqWidth (s : State) : Host.Outcome State Fault Refusal :=
  .next (s.respond (zext64 s.params.width))

/-- SEQ_BYTE_LEN (R107). -/
def execSeqByteLen (s : State) : Host.Outcome State Fault Refusal :=
  .next (s.respond (zext64Nat s.buf.len))

/-- SEQ_BYTE_READ (R108). -/
def execSeqByteRead (j : DataWord) (s : State) : Host.Outcome State Fault Refusal :=
  .next (if s.byteReadStatus j = .ok then s.respond (zext64 (s.buf.read j.toNat))
    else s.raise (s.byteReadStatus j))

end Sys2Proof.Machine
end

