-- ==== Sys2Proof/Machine/Dispatch.lean ====
section
/-! DEFINITION. One arm for each constructor of Instr. -/

namespace Sys2Proof.Machine

def exec (i : Instr) (s : State) : Host.Outcome State Fault Refusal :=
  match i with
  | .seqInsert v => Sys2Proof.Machine.execSeqInsert v s
  | .seqRetrieve idx => Sys2Proof.Machine.execSeqRetrieve idx s
  | .seqSize => Sys2Proof.Machine.execSeqSize s
  | .seqWidth => Sys2Proof.Machine.execSeqWidth s
  | .seqByteLen => Sys2Proof.Machine.execSeqByteLen s
  | .seqByteRead j => Sys2Proof.Machine.execSeqByteRead j s
  | .mdInvalid => Sys2Proof.Machine.execMdInvalid s
  | .mdNoTurn => Sys2Proof.Machine.execMdNoTurn s
  | .mdMake t m => Sys2Proof.Machine.execMdMake t m s
  | .mdRemain k m => Sys2Proof.Machine.execMdRemain k m s
  | .mdEnter k m => Sys2Proof.Machine.execMdEnter k m s
  | .mdExit k m => Sys2Proof.Machine.execMdExit k m s
  | .mdEnterAndExit k m => Sys2Proof.Machine.execMdEnterAndExit k m s
  | .mdEnterAtExit k m => Sys2Proof.Machine.execMdEnterAtExit k m s
  | .mdSuppressed m => Sys2Proof.Machine.execMdSuppressed m s
  | .mdEq d1 d2 => Sys2Proof.Machine.execMdEq d1 d2 s
  | .mdNe d1 d2 => Sys2Proof.Machine.execMdNe d1 d2 s
  | .mdGetType d1 => Sys2Proof.Machine.execMdGetType d1 s
  | .mdGetModifier d1 => Sys2Proof.Machine.execMdGetModifier d1 s

end Sys2Proof.Machine
end

