-- ==== Sys2Proof/Machine/Step.lean ====
section
/-! DEFINITION. One step of the machine. The block has no program counter and fetches nothing (10_state.md R21,
R58): its next command is the outstanding request of the port. A step is the first of these that applies: an
asserted reset (R200, R202); the outstanding request, performed in full and answered (R52, R55, R60); a
pending response, received by its host (R60); the next command of some host (R56); waiting (R201).

No step takes a stated time, and every one ends (R210). -/

namespace Sys2Proof.Machine

/-- The outstanding request, decoded and performed (R70): a word that is no command raises IllegalCommand. -/
def State.perform (s : State) (req : Request) : Host.Outcome State Fault Refusal :=
  match decode req with
  | .ok i => exec i s
  | .error _ => .next (s.raise .illegalCommand)

/-- One step under a given arbiter between the hosts. -/
def stepWith (arbiter : Nat → Nat) (s : State) : Host.Outcome State Fault Refusal :=
  if s.resetIn then .next s.blockReset
  else
    match s.request, s.response with
    | some req, _ => s.perform req
    | none, some r => .next (s.deliver r)
    | none, none => .next (s.acceptNext arbiter)

/-- One step of the machine. -/
def step (s : State) : Host.Outcome State Fault Refusal := stepWith Config.arbiter s

/-- `s` with the instruction whose bits are `w` as the port's outstanding request (its DATA word is 0 where the
table gives it no bits), and no reset asserted, so that the next step runs it. It stands for a host
that sends this request (log entry 16). -/
def State.withFetchWord (s : State) (nbits w : Nat) : State :=
  { s with request := some (requestOfBits nbits w), resetIn := false }

end Sys2Proof.Machine
end

