-- ==== Sys2Proof/Machine/Assembler.lean ====
section
/-! DEFINITION. The assembler of 30_encoding.md R75 and R76: a line whose operands fit their fields becomes a
command, a line with an operand that does not fit is refused. -/

namespace Sys2Proof.Machine

/-- The code a T operand stands for (R75). -/
def asmType (tc : TypeCodes) : TOperand → TypeField
  | .num n => BitVec.ofNat 5 n
  | .label l => tc.code l

/-- The code an M operand stands for (R75). -/
def asmModifier : MOperand → ModField
  | .num n => BitVec.ofNat 3 n
  | .name m => m.code

/-- The ordinal a K operand stands for (R75). -/
def asmKind : KOperand → KindOrdinal
  | .num n => BitVec.ofNat 8 n
  | .name k => k.ordinal

/-- The command of a line whose operands fit (R75); `md.default` expands to `md.invalid` (R76). -/
def asmCommand (tc : TypeCodes) : AsmLine → Instr
  | .seqInsert v => .seqInsert (BitVec.ofNat 64 v)
  | .seqRetrieve i => .seqRetrieve (BitVec.ofNat 64 i)
  | .seqSize => .seqSize
  | .seqWidth => .seqWidth
  | .seqByteLen => .seqByteLen
  | .seqByteRead j => .seqByteRead (BitVec.ofNat 64 j)
  | .mdInvalid => .mdInvalid
  | .mdNoTurn => .mdNoTurn
  | .mdMake t m => .mdMake (asmType tc t) (asmModifier m)
  | .mdRemain k m => .mdRemain (asmKind k) (asmModifier m)
  | .mdEnter k m => .mdEnter (asmKind k) (asmModifier m)
  | .mdExit k m => .mdExit (asmKind k) (asmModifier m)
  | .mdEnterAndExit k m => .mdEnterAndExit (asmKind k) (asmModifier m)
  | .mdEnterAtExit k m => .mdEnterAtExit (asmKind k) (asmModifier m)
  | .mdSuppressed m => .mdSuppressed (asmModifier m)
  | .mdEq d1 d2 => .mdEq (BitVec.ofNat 8 d1) (BitVec.ofNat 8 d2)
  | .mdNe d1 d2 => .mdNe (BitVec.ofNat 8 d1) (BitVec.ofNat 8 d2)
  | .mdGetType d => .mdGetType (BitVec.ofNat 8 d)
  | .mdGetModifier d => .mdGetModifier (BitVec.ofNat 8 d)
  | .mdDefault => .mdInvalid

/-- The assembler (R75): none where an operand does not fit its field. -/
def assemble (tc : TypeCodes) (line : AsmLine) : Option Instr :=
  if line.wellFormed then some (asmCommand tc line) else none

end Sys2Proof.Machine
end

