-- ==== Sys2Proof/Machine/AsmText.lean ====
section
/-! DEFINITION. The text of the assembler (30_encoding.md R75, R76): one command per line, `;` starts a comment,
numbers are decimal or `0x` hex, and names stand for codes. A text is a list of characters. What R75 leaves open
(white space, blank lines, the case of hex digits) is settled in log entry 23. -/

namespace Sys2Proof.Machine

/-- The label of a maneuver type as R32 spells it. -/
def typeLabel : ManeuverType → String
  | .invalid => "Invalid"
  | .noTurn => "NoTurn"
  | .suppressed => "Suppressed"
  | .stayOnRoundabout => "StayOnRoundabout"
  | .enterRoundabout => "EnterRoundabout"
  | .enterRotary => "EnterRotary"
  | .enterRoundaboutIntersection => "EnterRoundaboutIntersection"
  | .exitRoundabout => "ExitRoundabout"
  | .exitRotary => "ExitRotary"
  | .exitRoundaboutIntersection => "ExitRoundaboutIntersection"
  | .enterAndExitRoundabout => "EnterAndExitRoundabout"
  | .enterAndExitRotary => "EnterAndExitRotary"
  | .enterAndExitRoundaboutIntersection => "EnterAndExitRoundaboutIntersection"
  | .enterRoundaboutAtExit => "EnterRoundaboutAtExit"
  | .enterRotaryAtExit => "EnterRotaryAtExit"
  | .enterRoundaboutIntersectionAtExit => "EnterRoundaboutIntersectionAtExit"

/-- The modifier a name stands for (R33). -/
def modifierOfName (name : String) : Option DirectionModifier :=
  match name with
  | "UTurn" => some .uTurn
  | "SharpRight" => some .sharpRight
  | "Right" => some .right
  | "SlightRight" => some .slightRight
  | "Straight" => some .straight
  | "SlightLeft" => some .slightLeft
  | "Left" => some .left
  | "SharpLeft" => some .sharpLeft
  | _ => none

/-- The kind a name stands for (R34). -/
def kindOfName (name : String) : Option RoadKind :=
  match name with
  | "KIND_INVALID" => some .invalid
  | "ROUNDABOUT" => some .roundabout
  | "ROTARY" => some .rotary
  | "ROUNDABOUT_INTERSECTION" => some .roundaboutIntersection
  | _ => none

/-- A digit of a decimal number. -/
def decimalDigit (c : Char) : Option Nat :=
  if '0' ≤ c ∧ c ≤ '9' then some (c.toNat - '0'.toNat) else none

/-- A digit of a hex number, in either case. -/
def hexDigit (c : Char) : Option Nat :=
  if 'a' ≤ c ∧ c ≤ 'f' then some (c.toNat - 'a'.toNat + 10)
  else if 'A' ≤ c ∧ c ≤ 'F' then some (c.toNat - 'A'.toNat + 10)
  else decimalDigit c

/-- The number that digits write after `acc`; none where one of them is no digit. -/
def readDigits (base : Nat) (digit : Char → Option Nat) (acc : Nat) : List Char → Option Nat
  | [] => some acc
  | c :: cs =>
    match digit c with
    | some d => readDigits base digit (acc * base + d) cs
    | none => none

/-- A number, decimal or `0x` hex (R75). -/
def readNumber : List Char → Option Nat
  | '0' :: 'x' :: c :: cs => readDigits 16 hexDigit 0 (c :: cs)
  | c :: cs => readDigits 10 decimalDigit 0 (c :: cs)
  | [] => none

/-- A T operand: a number or a label (R75). -/
def readType (cs : List Char) : Option TOperand :=
  match readNumber cs with
  | some n => some (.num n)
  | none => (ManeuverType.all.find? fun l => typeLabel l == String.ofList cs).map .label

/-- An M operand: a number or a name (R75). -/
def readModifier (cs : List Char) : Option MOperand :=
  match readNumber cs with
  | some n => some (.num n)
  | none => (modifierOfName (String.ofList cs)).map .name

/-- A K operand: a number or a name (R75). -/
def readKind (cs : List Char) : Option KOperand :=
  match readNumber cs with
  | some n => some (.num n)
  | none => (kindOfName (String.ofList cs)).map .name

/-- White space within a line. -/
def isBlank (c : Char) : Bool := c == ' ' || c == '\t' || c == '\r'

/-- The text without white space at its ends. -/
def trimBlanks (cs : List Char) : List Char := ((cs.dropWhile isBlank).reverse.dropWhile isBlank).reverse

/-- The parts of a text between the separators; there is always one. -/
def splitAtChar (sep : Char) : List Char → List (List Char)
  | [] => [[]]
  | c :: cs =>
    if c = sep then [] :: splitAtChar sep cs
    else
      match splitAtChar sep cs with
      | [] => [[c]]
      | part :: parts => (c :: part) :: parts

/-- The operands of a line, from the text after its mnemonic. -/
def operandTexts (cs : List Char) : List (List Char) :=
  match trimBlanks cs with
  | [] => []
  | c :: rest => (splitAtChar ',' (c :: rest)).map trimBlanks

/-- A command of a type and a modifier. -/
def readTM (build : TOperand → MOperand → AsmLine) (t m : List Char) : Option AsmLine :=
  match readType t, readModifier m with
  | some t, some m => some (build t m)
  | _, _ => none

/-- A command of a kind and a modifier. -/
def readKM (build : KOperand → MOperand → AsmLine) (k m : List Char) : Option AsmLine :=
  match readKind k, readModifier m with
  | some k, some m => some (build k m)
  | _, _ => none

/-- A command of two descriptors. -/
def readDD (build : Nat → Nat → AsmLine) (d1 d2 : List Char) : Option AsmLine :=
  match readNumber d1, readNumber d2 with
  | some d1, some d2 => some (build d1 d2)
  | _, _ => none

/-- The line a mnemonic and its operands write (the syntax column of R75, and R76); none where there is no such
syntax. -/
def readCommand (mnemonic : String) (operands : List (List Char)) : Option AsmLine :=
  match mnemonic, operands with
  | "seq.insert", [v] => (readNumber v).map .seqInsert
  | "seq.retrieve", [i] => (readNumber i).map .seqRetrieve
  | "seq.size", [] => some .seqSize
  | "seq.width", [] => some .seqWidth
  | "seq.bytelen", [] => some .seqByteLen
  | "seq.byteread", [j] => (readNumber j).map .seqByteRead
  | "md.invalid", [] => some .mdInvalid
  | "md.noturn", [] => some .mdNoTurn
  | "md.make", [t, m] => readTM .mdMake t m
  | "md.remain", [k, m] => readKM .mdRemain k m
  | "md.enter", [k, m] => readKM .mdEnter k m
  | "md.exit", [k, m] => readKM .mdExit k m
  | "md.enterexit", [k, m] => readKM .mdEnterAndExit k m
  | "md.enteratexit", [k, m] => readKM .mdEnterAtExit k m
  | "md.suppressed", [m] => (readModifier m).map .mdSuppressed
  | "md.eq", [d1, d2] => readDD .mdEq d1 d2
  | "md.ne", [d1, d2] => readDD .mdNe d1 d2
  | "md.gettype", [d] => (readNumber d).map .mdGetType
  | "md.getmod", [d] => (readNumber d).map .mdGetModifier
  | "md.default", [] => some .mdDefault
  | _, _ => none

/-- One line of text: the commands it writes, none or one; no list where the assembler refuses it. -/
def assembleLine (tc : TypeCodes) (text : List Char) : Option (List Instr) :=
  match trimBlanks (text.takeWhile (· ≠ ';')) with
  | [] => some []
  | c :: cs =>
    match readCommand (String.ofList ((c :: cs).takeWhile (!isBlank ·)))
        (operandTexts ((c :: cs).dropWhile (!isBlank ·))) with
    | some line => (assemble tc line).map fun i => [i]
    | none => none

/-- A text of lines (R75): the requests of its commands in order; none where a line is refused. -/
def assembleText (tc : TypeCodes) (text : List Char) : Option (List Request) :=
  ((splitAtChar '\n' text).mapM (assembleLine tc)).map fun lines => lines.flatten.map encode

end Sys2Proof.Machine
end

