-- ==== Sys2Proof/Machine/ByteForm.lean ====
section
/-! DEFINITION. The byte-level forms of the read and the write of an element (20_memory.md R46 to R48), which
the spec gives beside the bit-level rules R42 to R44. The meanings use the bit-level rules; that the two agree
is a statement of its own. Arithmetic is on naturals: a span of nine bytes needs 72 bits (R46). -/

namespace Sys2Proof.Machine

/-- `j0`, the byte that holds the first bit of element i (R46). -/
def spanStart (w i : Nat) : Nat := i * w / 8

/-- `s`, the bit-in-byte number of the first bit of element i (R46). -/
def spanShift (w i : Nat) : Nat := i * w % 8

/-- `n`, the number of bytes element i spans (R46). -/
def spanLength (w i : Nat) : Nat := ceilDiv (spanShift w i + w) 8

/-- The first `t` rounds of R47's gather: the byte at the lowest index is the least significant. -/
def Memory.gatherLsb (m : Memory) (j0 : Nat) : Nat → Nat
  | 0 => 0
  | t + 1 => m.gatherLsb j0 t ||| (m.read (j0 + t)).toNat <<< (8 * t)

/-- The first `t` rounds of R48's gather over `n` bytes: the byte at the lowest index is the most significant. -/
def Memory.gatherMsb (m : Memory) (j0 n : Nat) : Nat → Nat
  | 0 => 0
  | t + 1 => m.gatherMsb j0 n t ||| (m.read (j0 + t)).toNat <<< (8 * (n - 1 - t))

/-- The byte-level read (R47, R48). -/
def Memory.elemByBytes (m : Memory) (o : BitOrder) (w i : Nat) : Nat :=
  let n := spanLength w i
  match o with
  | .lsbFirst => (m.gatherLsb (spanStart w i) n >>> spanShift w i) &&& (2 ^ w - 1)
  | .msbFirst => (m.gatherMsb (spanStart w i) n n >>> (8 * n - spanShift w i - w)) &&& (2 ^ w - 1)

/-- Byte `t` of the field to be written over `n` bytes (R47, R48). -/
def fieldByte (o : BitOrder) (n field t : Nat) : Byte :=
  match o with
  | .lsbFirst => BitVec.ofNat 8 (field >>> (8 * t))
  | .msbFirst => BitVec.ofNat 8 (field >>> (8 * (n - 1 - t)))

/-- The first `t` rounds of the byte-level write: each spanned byte is ORed with its byte of the field. -/
def Memory.orField (m : Memory) (o : BitOrder) (j0 n field : Nat) : Nat → Memory
  | 0 => m
  | t + 1 =>
    let m' := m.orField o j0 n field t
    m'.write (j0 + t) (m'.read (j0 + t) ||| fieldByte o n field t)

/-- The value shifted to where its element stands in the field of its spanned bytes (R47, R48). -/
def elemField (o : BitOrder) (w i : Nat) (v : DataWord) : Nat :=
  match o with
  | .lsbFirst => v.toNat <<< spanShift w i
  | .msbFirst => v.toNat <<< (8 * spanLength w i - spanShift w i - w)

/-- The byte-level write (R47, R48). -/
def Memory.writeByBytes (m : Memory) (o : BitOrder) (w i : Nat) (v : DataWord) : Memory :=
  m.orField o (spanStart w i) (spanLength w i) (elemField o w i v) (spanLength w i)

end Sys2Proof.Machine
end

