-- ==== Sys2Proof/Safety.lean ====
section
/-! DEFINITION. What the statements speak about: the invariant of the machine, runs of commands, what an
instruction leaves alone, and the single-writer discipline a host program must follow
(70_reset_and_hazards.md R205). -/

namespace Sys2Proof.Machine

/-- What holds of every response the block gives (R60, R180): codes 5 to 7 are never produced, and RESULT is
0 unless STATUS is OK. -/
def Response.Legal (r : Response) : Prop := r.status.toNat ≤ 4 ∧ (r.status ≠ 0 → r.result = 0)

/-- The invariant of the machine. -/
structure State.Inv (s : State) : Prop where
  /-- The block exists: its parameters are legal (R5, R7, R8). -/
  paramsLegal : s.params.wellFormed = true
  /-- BUF is in its canonical form. -/
  bufCanonical : s.buf.wf = true
  /-- COUNT is in `[0, MAX_COUNT]` (R23). -/
  countBound : s.count ≤ s.params.maxCount
  /-- The length invariant (R24). -/
  lengthExact : s.buf.len = ceilDiv (s.count * s.W) 8
  /-- The padding invariant (R26, R45). -/
  paddingZero : ∀ b < 8 * s.buf.len, s.count * s.W ≤ b → s.bit b = false
  /-- No response is pending while a request is outstanding (R60). -/
  portExclusive : s.request ≠ none → s.response = none
  /-- A pending response is legal. -/
  responseLegal : ∀ r, s.response = some r → r.Legal
  /-- Every response a host has received is legal. -/
  receivedLegal : ∀ a ∈ s.agents, ∀ r ∈ a.received, r.Legal

/-- `t` is `s` but for the port's request and response words: the whole of what a command that does not append
an element may change. -/
def SameButPort (s t : State) : Prop :=
  t.params = s.params ∧ t.count = s.count ∧ t.buf = s.buf ∧ t.resetIn = s.resetIn ∧
    t.agents = s.agents ∧ t.owner = s.owner ∧ t.turn = s.turn

/-- The frame of SEQ_INSERT: everything but COUNT, BUF and the port's request and response words. -/
def SameButSeqAndPort (s t : State) : Prop :=
  t.params = s.params ∧ t.resetIn = s.resetIn ∧ t.agents = s.agents ∧ t.owner = s.owner ∧ t.turn = s.turn

/-- The command has ended with this response, and no request is outstanding (R15, R60). -/
def Answered (t : State) (status : StatusWord) (result : DataWord) : Prop :=
  t.request = none ∧ t.response = some ⟨status, result⟩

/-- The thirteen commands of the MD unit (R140). -/
def IsMd : Instr → Bool
  | .seqInsert _ => false
  | .seqRetrieve _ => false
  | .seqSize => false
  | .seqWidth => false
  | .seqByteLen => false
  | .seqByteRead _ => false
  | .mdInvalid => true
  | .mdNoTurn => true
  | .mdMake _ _ => true
  | .mdRemain _ _ => true
  | .mdEnter _ _ => true
  | .mdExit _ _ => true
  | .mdEnterAndExit _ _ => true
  | .mdEnterAtExit _ _ => true
  | .mdSuppressed _ => true
  | .mdEq _ _ => true
  | .mdNe _ _ => true
  | .mdGetType _ => true
  | .mdGetModifier _ => true

/-- The command completes with status OK and this result, and changes nothing but the port's two words. -/
def CompletesWith (i : Instr) (s : State) (result : DataWord) : Prop :=
  ∃ t, exec i s = .next t ∧ Answered t 0 result ∧ SameButPort s t

/-- The command reports this error: RESULT is 0 and nothing but the port's two words changes (R183). -/
def FailsWith (i : Instr) (s : State) (status : StatusWord) : Prop :=
  ∃ t, exec i s = .next t ∧ Answered t status 0 ∧ SameButPort s t

/-- This command word is this command, whatever DATA is (R63, R70). -/
def WordIs (cmd : Nat) (i : Instr) : Prop := ∀ data : DataWord, decode ⟨BitVec.ofNat 32 cmd, data⟩ = .ok i

/-- The commands performed one after another, each in full before the next (R55); none if one of them stops. -/
def performAll : List Instr → State → Option State
  | [], s => some s
  | i :: is, s =>
    match exec i s with
    | .next t => performAll is t
    | .fault _ => none
    | .refused _ => none

/-- The value of a request that is a SEQ_INSERT. -/
def insertValue (req : Request) : Option DataWord :=
  match decode req with
  | .ok (.seqInsert v) => some v
  | _ => none

/-- The answer depends on the elements the sequence holds: the commands R205 and 70_reset_and_hazards.md R207 let
another host send only after the writer's last insert (log entry 31 for SEQ_BYTE_LEN). -/
def Instr.readsElements : Instr → Bool
  | .seqInsert _ => false
  | .seqRetrieve _ => true
  | .seqSize => true
  | .seqWidth => false
  | .seqByteLen => true
  | .seqByteRead _ => true
  | .mdInvalid => false
  | .mdNoTurn => false
  | .mdMake _ _ => false
  | .mdRemain _ _ => false
  | .mdEnter _ _ => false
  | .mdExit _ _ => false
  | .mdEnterAndExit _ _ => false
  | .mdEnterAtExit _ _ => false
  | .mdSuppressed _ => false
  | .mdEq _ _ => false
  | .mdNe _ _ => false
  | .mdGetType _ => false
  | .mdGetModifier _ => false

/-- A request whose answer depends on the elements held. -/
def readsElements (req : Request) : Bool :=
  match decode req with
  | .ok i => Instr.readsElements i
  | .error _ => false

/-- The commands host `w` has not sent yet. -/
def State.issueOf (s : State) (w : Nat) : List Request := (s.sendsOf w).map (·.request)

/-- The run of the hosts' programs is over (R209): no host has a command to send, none is at the port, and no
response waits to be received. A command that a reset cut off has no response to wait for (R202), and counts as
finished: R209 speaks of received responses only, so this is the model's own choice (log entry 29). -/
def State.RunOver (s : State) : Prop :=
  s.request = none ∧ s.response = none ∧ ∀ w, s.issueOf w = []

/-- The values still to be inserted, if `w` is the only host that inserts: the outstanding request's, then
those of `w` in its issue order. -/
def State.pendingInserts (s : State) (w : Nat) : List DataWord :=
  (s.request.toList ++ s.issueOf w).filterMap insertValue

/-- The writer's side of the single-writer discipline (R205): no host but `w` has a SEQ_INSERT to send. The whole
discipline is `State.Disciplined`. -/
def State.SingleWriter (s : State) (w : Nat) : Prop :=
  ∀ h, h ≠ w → ∀ req ∈ s.issueOf h, insertValue req = none

/-- One insert as R101 decides it on the list of elements: a value that is too wide and a full sequence
leave the list as it is. -/
def insertInto (p : Params) (es : List DataWord) (v : DataWord) : List DataWord :=
  if v.toNat < 2 ^ p.W ∧ es.length ≠ p.maxCount then es ++ [v] else es

/-- The elements the machine ends with once every insert still to come is performed, in `w`'s issue order. -/
def State.finalElems (s : State) (w : Nat) : List DataWord :=
  (s.pendingInserts w).foldl (insertInto s.params) s.elems

/-- The commands of host `w` that it has had no response to, in order: the one at the port, which is none once it
has been performed, then those it will send. -/
def State.unanswered (s : State) (w : Nat) : List (Option Request) :=
  (if s.owner = some w ∧ (s.request.isSome || s.response.isSome) then [s.request] else []) ++
    (s.issueOf w).map some

/-- Once `w` has received `n` responses, none of its inserts is still to be performed. (A response to its last
insert may then stand at the port still, which takes no other command before `w` has received it.) -/
def State.InsertsDone (s : State) (w n : Nat) : Prop :=
  ∀ req, some req ∈ (s.unanswered w).drop (n - (s.receivedOf w).length) → insertValue req = none

/-- The single-writer discipline (R205): every SEQ_INSERT comes from `w`, and another host sends a command that
reads the elements only after host-side synchronization, that command's or that of an earlier one it sends, shows
that `w`'s last insert has had its response. Only a wait that names `w` itself counts: R205 leaves open whether a wait
for a third host that waited for `w` shows it too, and the model's choice is that it does not (log entry 32). -/
structure State.Disciplined (s : State) (w : Nat) : Prop where
  /-- No other host has a SEQ_INSERT to send. -/
  singleWriter : s.SingleWriter w
  /-- No other host's SEQ_INSERT is at the port. -/
  portInsert : ∀ req, s.request = some req → s.owner ≠ some w → insertValue req = none
  /-- Where another host's reading command is at the port, `w` has no insert left. -/
  portReader : ∀ req, s.request = some req → s.owner ≠ some w → readsElements req = true →
    ∀ r ∈ s.issueOf w, insertValue r = none
  /-- A reading command of another host waits for `w`'s last insert. -/
  readersWait : ∀ h, h ≠ w → ∀ before x rest, s.sendsOf h = before ++ x :: rest →
    readsElements x.request = true →
    ∃ n, (n = 0 ∨ ∃ y ∈ before ++ [x], (w, n) ∈ y.after) ∧ s.InsertsDone w n

/-- These requests performed one after another with no other command between them. -/
def State.serve : List Request → State → State
  | [], s => s
  | req :: reqs, s =>
    match s.perform req with
    | .next t => State.serve reqs t
    | .fault _ => s
    | .refused _ => s

/-- The responses to these requests, performed one after another with no other command between them. -/
def State.answers : List Request → State → List Response
  | [], _ => []
  | req :: reqs, s =>
    match s.perform req with
    | .next t => t.response.toList ++ State.answers reqs t
    | .fault _ => []
    | .refused _ => []

/-- The request of host `h` at the port, if it is `h`'s. -/
def State.portRequestOf (s : State) (h : Nat) : List Request :=
  if s.owner = some h then s.request.toList else []

/-- The response for host `h` at the port, if it is `h`'s. -/
def State.portResponseOf (s : State) (h : Nat) : List Response :=
  if s.owner = some h then s.response.toList else []

/-- The responses host `h` ends with under the discipline of writer `w`: the writer's commands are answered as if it
were alone, and every other host's as if the writer had finished. -/
def State.finalReceived (s : State) (w h : Nat) : List Response :=
  s.receivedOf h ++ s.portResponseOf h ++
    if h = w then State.answers (s.portRequestOf w ++ s.issueOf w) s
    else
      State.answers (s.portRequestOf h ++ s.issueOf h) (State.serve (s.request.toList ++ s.issueOf w) s)

/-- A run of `n` steps under an arbiter; none if one of them stops. -/
def runWith (arbiter : Nat → Nat) : Nat → State → Option State
  | 0, s => some s
  | n + 1, s =>
    match stepWith arbiter s with
    | .next t => runWith arbiter n t
    | .fault _ => none
    | .refused _ => none

/-! ### Assembler lines -/

/-- The number a T operand stands for (30_encoding.md R75): a number itself, a label its TypeCode. -/
def tNumber (tc : TypeCodes) : TOperand → Nat
  | .num n => n
  | .label l => (tc.code l).toNat

/-- The number an M operand stands for (R75, 10_state.md R33). -/
def mNumber : MOperand → Nat
  | .num n => n
  | .name .uTurn => 0
  | .name .sharpRight => 1
  | .name .right => 2
  | .name .slightRight => 3
  | .name .straight => 4
  | .name .slightLeft => 5
  | .name .left => 6
  | .name .sharpLeft => 7

/-- The number a K operand stands for (R75, 10_state.md R34). -/
def kNumber : KOperand → Nat
  | .num n => n
  | .name .invalid => 0
  | .name .roundabout => 1
  | .name .rotary => 2
  | .name .roundaboutIntersection => 3

/-- The line assembles, to a request with these two words (R75). -/
def LineIs (tc : TypeCodes) (line : AsmLine) (cmd data : Nat) : Prop :=
  ∃ i, assemble tc line = some i ∧ (encode i).cmd.toNat = cmd ∧ (encode i).data.toNat = data

end Sys2Proof.Machine
end

