-- ==== Sys2Proof/Certificates/Slice0/Obligations.lean ====
section
/-! DEFINITION. The statements about the model that are to be proved. Each formalises rules of spec/, which
OBLIGATIONS.json cites. W, BIT_ORDER, MAX_COUNT and TypeCode are the fields of `s.params`, so a statement about
every state holds for every instantiation. -/

open Sys2Proof Sys2Proof.Machine

/-! ### Encoding -/

/-- Every command's request decodes to that command, with every operand at every value its field admits. -/
def Obligations.DecodeOfEncode : Prop := ∀ i : Instr, decode (encode i) = .ok i

/-- A request that is a command is the request of that command, but for a DATA word the command ignores. -/
def Obligations.EncodeOfDecode : Prop :=
  ∀ (req : Request) (i : Instr), decode req = .ok i →
    (encode i).cmd = req.cmd ∧ (encode i).data = if i.readsData then req.data else 0

/-- A command word is a command exactly when it matches one of the nineteen rows of spec/opcode_table.json
under that row's mask, whatever DATA is. -/
def Obligations.CommandsAreExactlyTheTableRows : Prop :=
  ∀ (cmd : CmdWord) (data : DataWord),
    (∃ i, decode ⟨cmd, data⟩ = .ok i) ↔
      ∃ row ∈ ([(0xFFFFFFFF, 0x01), (0xFFFFFFFF, 0x02), (0xFFFFFFFF, 0x03), (0xFFFFFFFF, 0x04),
          (0xFFFFFFFF, 0x05), (0xFFFFFFFF, 0x06), (0xFFFFFFFF, 0x10), (0xFFFFFFFF, 0x11),
          (0xFFFF00FF, 0x12), (0xFF001FFF, 0x13), (0xFF001FFF, 0x14), (0xFF001FFF, 0x15),
          (0xFF001FFF, 0x16), (0xFF001FFF, 0x17), (0xFFFF1FFF, 0x18), (0xFF0000FF, 0x19),
          (0xFF0000FF, 0x1A), (0xFFFF00FF, 0x1B), (0xFFFF00FF, 0x1C)] : List (CmdWord × CmdWord)),
        cmd &&& row.1 = row.2

/-- The illegal opcodes are 0x00, 0x07 to 0x0F and 0x1D to 0xFF, 237 of the 256, and a request with one of them
is answered ILLEGAL_COMMAND with RESULT 0 and changes no state; the all-zero word is one of them. -/
def Obligations.IllegalOpcodeChangesNothing : Prop :=
  ((List.range 256).filter fun n => decide (n = 0 ∨ (0x07 ≤ n ∧ n ≤ 0x0F) ∨ 0x1D ≤ n)).length = 237 ∧
  (∀ op : Byte, (op.toNat = 0 ∨ (0x07 ≤ op.toNat ∧ op.toNat ≤ 0x0F) ∨ 0x1D ≤ op.toNat) ↔
    opcodeRow op = none) ∧
  ∀ (s : State) (req : Request), s.resetIn = false → s.request = some req →
    (req.cmd.toNat % 256 = 0 ∨ (0x07 ≤ req.cmd.toNat % 256 ∧ req.cmd.toNat % 256 ≤ 0x0F) ∨
      0x1D ≤ req.cmd.toNat % 256) →
    ∃ t, step s = .next t ∧ Answered t 4 0 ∧ SameButPort s t

/-- A request with an assigned opcode and a 1 in a reserved bit of its format is answered ILLEGAL_COMMAND with
RESULT 0 and changes no state: it is not executed as its opcode. -/
def Obligations.ReservedBitChangesNothing : Prop :=
  ∀ (s : State) (req : Request) (row : OpcodeRow) (b : Nat), s.resetIn = false → s.request = some req →
    opcodeRow (fieldOp req.cmd) = some row →
    row.format.reservedMask.getLsbD b = true → req.cmd.getLsbD b = true →
    ∃ t, step s = .next t ∧ Answered t 4 0 ∧ SameButPort s t

/-- A few words, written out from R62, R69 and R75, decode to the commands they stand for. -/
def Obligations.SampleWordsDecode : Prop :=
  decode ⟨0x00000001, 0x1FFFFFFFF⟩ = .ok (.seqInsert 0x1FFFFFFFF) ∧
  decode ⟨0x00000006, 0x8⟩ = .ok (.seqByteRead 8) ∧
  decode ⟨0x00004A12, 0⟩ = .ok (.mdMake 10 2) ∧
  decode ⟨0x00C8E013, 0⟩ = .ok (.mdRemain 200 7) ∧
  decode ⟨0x0003E015, 0⟩ = .ok (.mdExit 3 7) ∧
  decode ⟨0x006A4A19, 0⟩ = .ok (.mdEq 0x4A 0x6A)

/-- A command that ignores DATA is the same command, and the step that performs it has the same outcome, for
every DATA word. -/
def Obligations.IgnoredDataDoesNotMatter : Prop :=
  ∀ (cmd : CmdWord) (d d' : DataWord) (i : Instr), decode ⟨cmd, d⟩ = .ok i → i.readsData = false →
    decode ⟨cmd, d'⟩ = .ok i ∧
    ∀ s : State, step { s with request := some ⟨cmd, d⟩ } = step { s with request := some ⟨cmd, d'⟩ }

/-- Every operand is its bits as an unsigned number (R63): the fields of an accepted word in terms of the word's
value alone. -/
def Obligations.OperandsAreUnsignedFields : Prop :=
  ∀ cmd : CmdWord,
    (fieldOp cmd).toNat = cmd.toNat % 2 ^ 8 ∧
    (fieldT cmd).toNat = cmd.toNat / 2 ^ 8 % 2 ^ 5 ∧
    (fieldM cmd).toNat = cmd.toNat / 2 ^ 13 % 2 ^ 3 ∧
    (fieldK cmd).toNat = cmd.toNat / 2 ^ 16 % 2 ^ 8 ∧
    (fieldD1 cmd).toNat = cmd.toNat / 2 ^ 8 % 2 ^ 8 ∧
    (fieldD2 cmd).toNat = cmd.toNat / 2 ^ 16 % 2 ^ 8

/-! ### The port and the step -/

/-- With no reset asserted, a step at an outstanding request that decodes to `i` is `exec` of `i`. -/
def Obligations.StepPerformsTheDecodedCommand : Prop :=
  ∀ (s : State) (req : Request) (i : Instr), s.resetIn = false → s.request = some req →
    decode req = .ok i → step s = exec i s

/-- The very next step after `withFetchWord` runs the instruction the decoder reads from the word. -/
def Obligations.FetchWordRunsNext : Prop :=
  ∀ (s : State) (nbits w : Nat) (i : Instr), decodeTableWord nbits w = some i →
    step (s.withFetchWord nbits w) = exec i (s.withFetchWord nbits w)

/-- Every request is answered by the step that performs it, with exactly one response, which the step after it
hands to the host that sent the request and to no other. -/
def Obligations.EveryRequestGetsOneResponse : Prop :=
  ∀ (s : State) (req : Request), s.Inv → s.resetIn = false → s.request = some req →
    ∃ t r u, step s = .next t ∧ t.request = none ∧ t.response = some r ∧ t.agents = s.agents ∧
      step t = .next u ∧ u.request = none ∧ u.response = none ∧
      ∀ h a, s.agents[h]? = some a →
        u.agents[h]? = some (if s.owner = some h then { a with received := a.received ++ [r] } else a)

/-- No response arrives without a request: a step with no request outstanding puts no response on the port,
and a host receives only the response that was pending for it. -/
def Obligations.NoResponseWithoutRequest : Prop :=
  ∀ (s t : State), s.request = none → step s = .next t →
    t.response = none ∧
    ∀ h a b, s.agents[h]? = some a → t.agents[h]? = some b →
      b.received = a.received ∨
        ∃ r, s.response = some r ∧ s.owner = some h ∧ b.received = a.received ++ [r]

/-- A step with the reset input asserted, whatever request is outstanding, puts the block in the state of R200:
COUNT 0, BUF with no bytes, the parameters kept, no request, no response; the command that was outstanding
gives no response to any host. That reset also leaves what the hosts will still send alone is the model's choice
(log entry 15). -/
def Obligations.ResetEmptiesTheSequence : Prop :=
  ∀ s : State, s.resetIn = true →
    ∃ t, step s = .next t ∧ t.params = s.params ∧ t.count = 0 ∧ t.buf.len = 0 ∧ t.buf.cells = [] ∧
      t.request = none ∧ t.response = none ∧ t.agents = s.agents

/-- After reset, for every instantiation: COUNT is 0, BUF holds no bytes, WIDTH holds W, no request is
outstanding and no response is pending; SEQ_SIZE and SEQ_BYTE_LEN answer 0, SEQ_WIDTH answers W, and every
SEQ_BYTE_READ is out of range. -/
def Obligations.ResetValues : Prop :=
  State.reset.params = Config.params ∧ State.reset = State.resetOf Config.params ∧
  ∀ p : Params,
    (State.resetOf p).params = p ∧ (State.resetOf p).count = 0 ∧ (State.resetOf p).buf.len = 0 ∧
    (State.resetOf p).request = none ∧ (State.resetOf p).response = none ∧
    CompletesWith .seqSize (State.resetOf p) 0 ∧
    CompletesWith .seqByteLen (State.resetOf p) 0 ∧
    CompletesWith .seqWidth (State.resetOf p) (BitVec.ofNat 64 p.W) ∧
    ∀ j, FailsWith (.seqByteRead j) (State.resetOf p) 1

/-- The invariant holds after reset, for every legal instantiation, the machine's own among them. -/
def Obligations.ResetMeetsTheInvariant : Prop :=
  (∀ p : Params, p.wellFormed = true → (State.resetOf p).Inv) ∧ State.reset.Inv

/-- Every step keeps the invariant: the parameters stay legal, BUF stays canonical and exactly as long as its
elements need, its padding stays zero, COUNT stays within MAX_COUNT, and every response is legal. -/
def Obligations.StepKeepsTheInvariant : Prop :=
  ∀ s t : State, s.Inv → step s = .next t → t.Inv

/-- In a state that meets the invariant no step stops. -/
def Obligations.StepNeverStops : Prop := ∀ s : State, s.Inv → ∃ t, step s = .next t

/-- Only SEQ_INSERT and reset write COUNT or BUF. SEQ_INSERT adds exactly one element, keeps every bit of the
elements already written, and does not shrink BUF; only reset empties it. -/
def Obligations.OnlyInsertGrowsTheSequence : Prop :=
  ∀ s t : State, s.buf.wf = true → step s = .next t →
    (t.count = s.count ∧ t.buf = s.buf) ∨
    (s.resetIn = true ∧ t.count = 0 ∧ t.buf.len = 0) ∨
    (s.resetIn = false ∧ ∃ req v, s.request = some req ∧ decode req = .ok (.seqInsert v) ∧
      t.count = s.count + 1 ∧ s.buf.len ≤ t.buf.len ∧ ∀ b < s.count * s.W, t.bit b = s.bit b)

/-- No step changes a parameter of the instantiation. -/
def Obligations.ParametersNeverChange : Prop :=
  ∀ s t : State, step s = .next t → t.params = s.params

/-- A step that reports an error changes no state but the port's two words, and RESULT is 0. -/
def Obligations.ErrorChangesNoState : Prop :=
  ∀ (s t : State) (req : Request) (r : Response), s.resetIn = false → s.request = some req →
    step s = .next t → t.response = some r → r.status ≠ 0 →
    r.result = 0 ∧ t.request = none ∧ SameButPort s t

/-- An error is not sticky: after a request answered with any error, ILLEGAL_COMMAND among them, the step at the
next request, be it a command or not, has exactly the outcome it has without the error; and so has a command
after a command. In the first clause the error's response still stands at the port beside the next request, which no
run reaches; that the step then performs the request is the model's choice (log entry 28). -/
def Obligations.ErrorIsNotSticky : Prop :=
  (∀ (s t : State) (req : Request) (r : Response), s.resetIn = false → s.request = some req →
    step s = .next t → t.response = some r → r.status ≠ 0 →
    ∀ req' : Request, step { t with request := some req' } = step { s with request := some req' }) ∧
  ∀ (i j : Instr) (s t : State) (r : Response), exec i s = .next t → t.response = some r → r.status ≠ 0 →
    exec j t = exec j s

/-- Who raises which code: 1 exactly SEQ_RETRIEVE and SEQ_BYTE_READ with an index not below its bound, 2 exactly
SEQ_INSERT with a value of more than W bits, 3 exactly SEQ_INSERT of another value with MAX_COUNT elements held,
4 exactly the decoder, 5 to 7 nobody; every other command that completes is OK. -/
def Obligations.StatusCodesHaveTheirCauses : Prop :=
  (∀ (i : Instr) (s t : State) (r : Response), exec i s = .next t → t.response = some r →
    r.status.toNat ≤ 3 ∧
    (r.status = 1 ↔ (∃ idx, i = .seqRetrieve idx ∧ s.count ≤ idx.toNat) ∨
      (∃ j, i = .seqByteRead j ∧ s.buf.len ≤ j.toNat)) ∧
    (r.status = 2 ↔ ∃ v, i = .seqInsert v ∧ 2 ^ s.W ≤ v.toNat) ∧
    (r.status = 3 ↔ ∃ v, i = .seqInsert v ∧ v.toNat < 2 ^ s.W ∧ s.count = s.params.maxCount)) ∧
  ∀ (s t : State) (req : Request) (r : Response), s.resetIn = false → s.request = some req →
    step s = .next t → t.response = some r → (r.status = 4 ↔ ∃ e, decode req = .error e)

/-- Every command but SEQ_INSERT changes no state, and done again it answers the same; a successful SEQ_INSERT
appends one more element each time. -/
def Obligations.ReadsAreIdempotent : Prop :=
  (∀ (i : Instr) (s t : State), (∀ v, i ≠ .seqInsert v) → exec i s = .next t →
    SameButPort s t ∧ exec i t = .next t) ∧
  ∀ (v : DataWord) (s t : State), exec (.seqInsert v) s = .next t →
    (∃ r, t.response = some r ∧ r.status = 0) → t.count = s.count + 1

/-- A block exists exactly for the legal parameters. -/
def Obligations.IllegalParametersHaveNoBlock : Prop :=
  ∀ p : Params,
    State.instantiate p = none ↔
      (p.W = 0 ∨ 64 < p.W) ∨ (p.maxCount < 399 ∨ 2 ^ 64 ≤ p.maxCount) ∨
        ∃ l l', l ≠ l' ∧ p.typeCodes.code l = p.typeCodes.code l'

/-! ### SEQ commands -/

/-- SEQ_INSERT, every case of R101, with its encoding. A value of more than W bits is CAPACITY_ERROR, whatever COUNT is; otherwise a
full sequence is STORAGE_EXHAUSTED; otherwise COUNT grows by one, BUF grows to the bytes the elements
need, the value's bits stand at the new element's offsets, and every other bit of BUF and everything
else is as before. -/
def Obligations.SeqInsertAppendsOrFails : Prop :=
  ∀ (s : State) (v : DataWord), s.buf.wf = true →
    decode ⟨0x00000001, v⟩ = .ok (.seqInsert v) ∧
    (2 ^ s.W ≤ v.toNat → FailsWith (.seqInsert v) s 2) ∧
    (v.toNat < 2 ^ s.W → s.count = s.params.maxCount → FailsWith (.seqInsert v) s 3) ∧
    (v.toNat < 2 ^ s.W → s.count ≠ s.params.maxCount →
      ∃ t, exec (.seqInsert v) s = .next t ∧ Answered t 0 0 ∧ SameButSeqAndPort s t ∧
        t.count = s.count + 1 ∧
        t.buf.len = max s.buf.len (((s.count + 1) * s.W + 7) / 8) ∧
        ∀ b, t.bit b =
          if s.count * s.W ≤ b ∧ b < (s.count + 1) * s.W then
            match s.params.bitOrder with
            | .lsbFirst => v.getLsbD (b - s.count * s.W)
            | .msbFirst => v.getLsbD (s.W - 1 - (b - s.count * s.W))
          else s.bit b)

/-- What a SEQ_INSERT guarantees. When it succeeds: one more element, the exact length, the new element is the
value, the earlier ones are unchanged, the padding is zero. When it fails: COUNT, BUF and every element
are unchanged. -/
def Obligations.SeqInsertGuarantees : Prop :=
  ∀ (s t : State) (v : DataWord) (r : Response), s.Inv → exec (.seqInsert v) s = .next t →
    t.response = some r →
    (r.status = 0 →
      t.count = s.count + 1 ∧ t.buf.len = ((s.count + 1) * s.W + 7) / 8 ∧ t.elem s.count = v ∧
      (∀ i < s.count, t.elem i = s.elem i) ∧
      ∀ b, (s.count + 1) * s.W ≤ b → b < 8 * t.buf.len → t.bit b = false) ∧
    (r.status ≠ 0 → t.count = s.count ∧ t.buf = s.buf ∧ ∀ i, t.elem i = s.elem i)

/-- SEQ_INSERT writes only the bytes its element spans: with s the bit-in-byte number of the element's first
bit and n = ceil((s + W) / 8), every byte outside bytes `(COUNT * W) div 8` to that plus n - 1 reads as
before. -/
def Obligations.SeqInsertWritesOnlyItsSpan : Prop :=
  ∀ (s t : State) (v : DataWord), s.buf.wf = true → exec (.seqInsert v) s = .next t →
    ∀ j, (j < s.count * s.W / 8 ∨ s.count * s.W / 8 + (s.count * s.W % 8 + s.W + 7) / 8 ≤ j) →
      t.buf.read j = s.buf.read j

/-- SEQ_RETRIEVE, with its encoding. Below COUNT it answers the element: bit q of RESULT is the bit of BUF at the offset that holds
value bit q under BIT_ORDER, and no bit at or above W is set. At or above COUNT, on the full 64-bit
index, it is RANGE_ERROR. -/
def Obligations.SeqRetrieveReadsTheElement : Prop :=
  ∀ (s : State) (idx : DataWord), s.Inv →
    decode ⟨0x00000002, idx⟩ = .ok (.seqRetrieve idx) ∧
    (idx.toNat < s.count → ∃ v : DataWord, CompletesWith (.seqRetrieve idx) s v ∧
      ∀ q, v.getLsbD q =
        (decide (q < s.W) &&
          s.bit (idx.toNat * s.W +
            match s.params.bitOrder with
            | .lsbFirst => q
            | .msbFirst => s.W - 1 - q))) ∧
    (s.count ≤ idx.toNat → FailsWith (.seqRetrieve idx) s 1)

/-- Where a byte of the element does not exist (R31) SEQ_RETRIEVE stops by name. This is the model's own choice
(log entry 8); no state that meets the invariant is such a state. -/
def Obligations.SeqRetrieveStopsWhereNoByteExists : Prop :=
  ∀ (s : State) (idx : DataWord), idx.toNat < s.count →
    (exec (.seqRetrieve idx) s = .fault .absentByte ↔ 8 * s.buf.len < (idx.toNat + 1) * s.W) ∧
    (s.Inv → ∃ t, exec (.seqRetrieve idx) s = .next t)

/-- SEQ_SIZE is word 0x03; it answers COUNT and changes nothing. -/
def Obligations.SeqSizeReadsCount : Prop :=
  WordIs 0x03 .seqSize ∧
  ∀ s : State, s.Inv → ∃ v : DataWord, CompletesWith .seqSize s v ∧ v.toNat = s.count

/-- SEQ_WIDTH is word 0x04; it answers W, a value in 1 to 64, and changes nothing. -/
def Obligations.SeqWidthReadsW : Prop :=
  WordIs 0x04 .seqWidth ∧
  ∀ s : State, s.Inv → ∃ v : DataWord, CompletesWith .seqWidth s v ∧ v.toNat = s.W ∧
    1 ≤ v.toNat ∧ v.toNat ≤ 64

/-- SEQ_BYTE_LEN is word 0x05; it always completes and changes nothing. It answers the length of BUF, which is
`ceil(COUNT * W / 8)`, where that fits 64 bits. -/
def Obligations.SeqByteLenReadsTheLength : Prop :=
  WordIs 0x05 .seqByteLen ∧
  ∀ s : State, ∃ v : DataWord, CompletesWith .seqByteLen s v ∧
    (s.buf.len < 2 ^ 64 → v.toNat = s.buf.len) ∧
    (s.Inv → s.buf.len = (s.count * s.W + 7) / 8)

/-- SEQ_BYTE_READ, with its encoding, answers byte j of BUF, zero-extended, and RANGE_ERROR at or above `len(BUF)`. -/
def Obligations.SeqByteReadReadsTheByte : Prop :=
  ∀ (s : State) (j : DataWord),
    decode ⟨0x00000006, j⟩ = .ok (.seqByteRead j) ∧
    (j.toNat < s.buf.len →
      CompletesWith (.seqByteRead j) s (BitVec.ofNat 64 (s.buf.read j.toNat).toNat)) ∧
    (s.buf.len ≤ j.toNat → FailsWith (.seqByteRead j) s 1)

/-- The payload is a function of the elements alone: two blocks with the same parameters that hold the same
elements have the same backing bytes. -/
def Obligations.PayloadIsFixedByTheElements : Prop :=
  ∀ s t : State, s.Inv → t.Inv → s.params = t.params → s.elems = t.elems →
    s.payload = t.payload ∧ s.buf = t.buf ∧ s.count = t.count

/-- Every element lies in `[0, 2^W - 1]`. -/
def Obligations.ElementsFitTheirWidth : Prop :=
  ∀ (s : State) (i : Nat), s.W ≤ 64 → (s.elem i).toNat < 2 ^ s.W

/-- The value of element i depends only on the W bits at its own offsets, and a SEQ_INSERT changes no bit
outside the new element's offsets. -/
def Obligations.NeighboursAreIndependent : Prop :=
  (∀ (s s' : State) (i : Nat), s.params = s'.params → s.W ≤ 64 →
    (∀ b, i * s.W ≤ b → b < i * s.W + s.W → s.bit b = s'.bit b) → s.elem i = s'.elem i) ∧
  ∀ (s t : State) (v : DataWord), s.buf.wf = true → exec (.seqInsert v) s = .next t →
    ∀ b, b < s.count * s.W ∨ (s.count + 1) * s.W ≤ b → t.bit b = s.bit b

/-- The round-trip law: from reset, inserting any list of W-bit values within MAX_COUNT succeeds, and then index i
retrieves the i-th value, for every i below the length, and the index after the last is RANGE_ERROR. It holds
for every legal instantiation, so under both bit orders. -/
def Obligations.RoundTrip : Prop :=
  ∀ (p : Params) (vs : List DataWord), p.wellFormed = true → (∀ v ∈ vs, v.toNat < 2 ^ p.W) →
    vs.length ≤ p.maxCount →
    ∃ t, performAll (vs.map Instr.seqInsert) (State.resetOf p) = some t ∧
      (∀ i v, vs[i]? = some v → CompletesWith (.seqRetrieve (BitVec.ofNat 64 i)) t v) ∧
      FailsWith (.seqRetrieve (BitVec.ofNat 64 vs.length)) t 1 ∧
      CompletesWith .seqSize t (BitVec.ofNat 64 vs.length)

/-- Appending is appending: from every state that meets the invariant, performing the inserts of a list of
W-bit values that still fit makes the elements the old ones followed by the list. -/
def Obligations.InsertsAppendInOrder : Prop :=
  ∀ (s : State) (vs : List DataWord), s.Inv → (∀ v ∈ vs, v.toNat < 2 ^ s.W) →
    s.count + vs.length ≤ s.params.maxCount →
    ∃ t, performAll (vs.map Instr.seqInsert) s = some t ∧ t.elems = s.elems ++ vs

/-- The storage-size law: after any sequence of commands from reset, BUF is exactly as long as the elements
need, and SEQ_BYTE_LEN says so. -/
def Obligations.StorageSizeLaw : Prop :=
  ∀ (p : Params) (is : List Instr) (t : State), p.wellFormed = true →
    performAll is (State.resetOf p) = some t →
    t.buf.len = (t.count * t.W + 7) / 8 ∧
    (t.buf.len < 2 ^ 64 → CompletesWith .seqByteLen t (BitVec.ofNat 64 ((t.count * t.W + 7) / 8)))

/-- The boundary law: a fresh block that inserts the single value 0, or the single value `2^W - 1`, retrieves it
from index 0. -/
def Obligations.BoundaryValuesRoundTrip : Prop :=
  ∀ (p : Params) (v : DataWord), p.wellFormed = true → (v.toNat = 0 ∨ v.toNat = 2 ^ p.W - 1) →
    ∃ t, exec (.seqInsert v) (State.resetOf p) = .next t ∧ Answered t 0 0 ∧
      CompletesWith (.seqRetrieve 0) t v

/-- A SEQ_RETRIEVE of index c after the SEQ_INSERT that made element c answers that element. -/
def Obligations.RetrieveSeesTheInsert : Prop :=
  ∀ (s t : State) (v : DataWord), s.Inv → exec (.seqInsert v) s = .next t → t.count = s.count + 1 →
    CompletesWith (.seqRetrieve (BitVec.ofNat 64 s.count)) t v

/-! ### The byte-level forms -/

/-- An element spans n = ceil((s + W) / 8) bytes: each of them holds a bit of it, no other does, n is between 1 and
9, and n = 9 only when s + W > 64, as for element 1 of a W = 63 sequence. -/
def Obligations.ElementSpan : Prop :=
  (∀ w i : Nat, 1 ≤ w → w ≤ 64 →
    1 ≤ spanLength w i ∧ spanLength w i ≤ 9 ∧ (spanLength w i = 9 → 64 < spanShift w i + w) ∧
    ∀ j, (spanStart w i ≤ j ∧ j < spanStart w i + spanLength w i) ↔ ∃ k < w, (i * w + k) / 8 = j) ∧
  spanShift 63 1 = 7 ∧ spanStart 63 1 = 7 ∧ spanLength 63 1 = 9

/-- The byte-level read gives the bit-level value, under both bit orders. -/
def Obligations.ByteLevelReadIsElem : Prop :=
  ∀ (m : Memory) (o : BitOrder) (w i : Nat), 1 ≤ w → w ≤ 64 →
    m.elemByBytes o w i = (m.elem o w i).toNat

/-- The byte-level write gives the memory the bit-level write gives, under both bit orders, where the element's
own bits are zero before it. -/
def Obligations.ByteLevelWriteIsBitLevelWrite : Prop :=
  ∀ (m : Memory) (o : BitOrder) (w i : Nat) (v : DataWord), 1 ≤ w → w ≤ 64 → m.wf = true →
    v.toNat < 2 ^ w → (i + 1) * w ≤ 8 * m.len →
    (∀ b, i * w ≤ b → b < i * w + w → m.getBit o b = false) →
    m.writeByBytes o w i v = m.writeElem o w i v w

/-! ### MD commands -/

/-- A descriptor has its type in bits 4 to 0 and its modifier in bits 7 to 5; the fields come back out, and every
byte is the descriptor of its fields. -/
def Obligations.DescriptorFields : Prop :=
  (∀ (t : TypeField) (m : ModField),
    (desc t m).toNat = m.toNat * 32 + t.toNat ∧ typeOf (desc t m) = t ∧ modOf (desc t m) = m) ∧
  ∀ d : Byte, desc (typeOf d) (modOf d) = d

/-- Every MD command is pure: in any two states with the same TypeCode it answers OK with the same RESULT, which
fits a byte, and changes nothing else. -/
def Obligations.MdCommandsArePure : Prop :=
  ∀ (i : Instr) (s s' : State), IsMd i = true → s.params.typeCodes = s'.params.typeCodes →
    ∃ r : DataWord, CompletesWith i s r ∧ CompletesWith i s' r ∧ r.toNat < 256

/-- MD_INVALID and MD_NO_TURN are the words 0x10 and 0x11; they answer their type with modifier U-turn, which is code 0. -/
def Obligations.MdInvalidAndNoTurn : Prop :=
  WordIs 0x10 .mdInvalid ∧ WordIs 0x11 .mdNoTurn ∧
  ∀ s : State,
    CompletesWith .mdInvalid s (BitVec.ofNat 64 (s.params.typeCodes.code .invalid).toNat) ∧
    CompletesWith .mdNoTurn s (BitVec.ofNat 64 (s.params.typeCodes.code .noTurn).toNat)

/-- MD_MAKE, with its encoding, answers `(M << 5) | T`, for all 32 type codes; the sentinel made so is MD_INVALID's. -/
def Obligations.MdMakePairsTypeAndModifier : Prop :=
  ∀ (s : State) (t : TypeField) (m : ModField),
    WordIs (m.toNat * 2 ^ 13 + t.toNat * 2 ^ 8 + 0x12) (.mdMake t m) ∧
    CompletesWith (.mdMake t m) s (BitVec.ofNat 64 (m.toNat * 32 + t.toNat)) ∧
    ∀ r, CompletesWith (.mdMake (s.params.typeCodes.code .invalid) 0) s r ↔ CompletesWith .mdInvalid s r

/-- MD_REMAIN, with its encoding, answers the stay-on-roundabout type with the given modifier, whatever the kind. -/
def Obligations.MdRemainIgnoresTheKind : Prop :=
  ∀ (s : State) (k : KindOrdinal) (m : ModField),
    WordIs (k.toNat * 2 ^ 16 + m.toNat * 2 ^ 13 + 0x13) (.mdRemain k m) ∧
    CompletesWith (.mdRemain k m) s
      (BitVec.ofNat 64 (m.toNat * 32 + (s.params.typeCodes.code .stayOnRoundabout).toNat))

/-- The four table commands, with their encodings: kinds 1, 2 and 3 give the variant of their own table, kind 0 and every kind from 4
up give the Invalid type, each with the command's own modifier. -/
def Obligations.TableCommandsLookUpTheirTable : Prop :=
  ∀ (s : State) (k : KindOrdinal) (m : ModField),
    let answer (l1 l2 l3 : ManeuverType) : DataWord :=
      BitVec.ofNat 64 (m.toNat * 32 +
        (s.params.typeCodes.code
          (if k.toNat = 1 then l1 else if k.toNat = 2 then l2 else if k.toNat = 3 then l3
            else .invalid)).toNat)
    (WordIs (k.toNat * 2 ^ 16 + m.toNat * 2 ^ 13 + 0x14) (.mdEnter k m) ∧
      WordIs (k.toNat * 2 ^ 16 + m.toNat * 2 ^ 13 + 0x15) (.mdExit k m) ∧
      WordIs (k.toNat * 2 ^ 16 + m.toNat * 2 ^ 13 + 0x16) (.mdEnterAndExit k m) ∧
      WordIs (k.toNat * 2 ^ 16 + m.toNat * 2 ^ 13 + 0x17) (.mdEnterAtExit k m)) ∧
    CompletesWith (.mdEnter k m) s
      (answer .enterRoundabout .enterRotary .enterRoundaboutIntersection) ∧
    CompletesWith (.mdExit k m) s
      (answer .exitRoundabout .exitRotary .exitRoundaboutIntersection) ∧
    CompletesWith (.mdEnterAndExit k m) s
      (answer .enterAndExitRoundabout .enterAndExitRotary .enterAndExitRoundaboutIntersection) ∧
    CompletesWith (.mdEnterAtExit k m) s
      (answer .enterRoundaboutAtExit .enterRotaryAtExit .enterRoundaboutIntersectionAtExit)

/-- MD_SUPPRESSED, with its encoding, answers the Suppressed type with the given modifier, for all eight. -/
def Obligations.MdSuppressedKeepsTheModifier : Prop :=
  ∀ (s : State) (m : ModField),
    WordIs (m.toNat * 2 ^ 13 + 0x18) (.mdSuppressed m) ∧
    CompletesWith (.mdSuppressed m) s
      (BitVec.ofNat 64 (m.toNat * 32 + (s.params.typeCodes.code .suppressed).toNat))

/-- MD_EQ and MD_NE, with their encodings: MD_EQ answers 1 when the two bytes are equal and 0 otherwise; MD_NE answers the other truth value, so exactly
one of them answers 1. -/
def Obligations.MdEqAndNeCompareDescriptors : Prop :=
  ∀ (s : State) (d1 d2 : Byte),
    WordIs (d2.toNat * 2 ^ 16 + d1.toNat * 2 ^ 8 + 0x19) (.mdEq d1 d2) ∧
    WordIs (d2.toNat * 2 ^ 16 + d1.toNat * 2 ^ 8 + 0x1A) (.mdNe d1 d2) ∧
    CompletesWith (.mdEq d1 d2) s (if d1 = d2 then 1 else 0) ∧
    CompletesWith (.mdNe d1 d2) s (if d1 = d2 then 0 else 1)

/-- MD_GET_TYPE and MD_GET_MODIFIER, with their encodings: MD_GET_TYPE answers `D1 & 0x1F` and MD_GET_MODIFIER answers `D1 >> 5`. -/
def Obligations.MdGetFields : Prop :=
  ∀ (s : State) (d : Byte),
    WordIs (d.toNat * 2 ^ 8 + 0x1B) (.mdGetType d) ∧
    WordIs (d.toNat * 2 ^ 8 + 0x1C) (.mdGetModifier d) ∧
    CompletesWith (.mdGetType d) s (BitVec.ofNat 64 (d.toNat % 32)) ∧
    CompletesWith (.mdGetModifier d) s (BitVec.ofNat 64 (d.toNat / 32))

/-- MD_EQ is reflexive, symmetric and transitive, and answers 0 whenever a field differs. -/
def Obligations.MdEqIsAnEquivalence : Prop :=
  ∀ s : State,
    (∀ d, CompletesWith (.mdEq d d) s 1) ∧
    (∀ d1 d2, CompletesWith (.mdEq d1 d2) s 1 → CompletesWith (.mdEq d2 d1) s 1) ∧
    (∀ d1 d2 d3, CompletesWith (.mdEq d1 d2) s 1 → CompletesWith (.mdEq d2 d3) s 1 →
      CompletesWith (.mdEq d1 d3) s 1) ∧
    ∀ d1 d2, typeOf d1 ≠ typeOf d2 ∨ modOf d1 ≠ modOf d2 → CompletesWith (.mdEq d1 d2) s 0

/-- The roundabout-table law: under every injective TypeCode the twelve types of kinds 1 to 3 are pairwise
distinct and none is Invalid; kind 0 gives Invalid in every table. -/
def Obligations.RoundaboutTypesAreDistinct : Prop :=
  ∀ tc : TypeCodes, tc.injective = true →
    (∀ (x x' : RoadTable) (k k' : KindOrdinal), 1 ≤ k.toNat → k.toNat ≤ 3 → 1 ≤ k'.toNat → k'.toNat ≤ 3 →
      lookup tc x k = lookup tc x' k' → x = x' ∧ k = k') ∧
    (∀ (x : RoadTable) (k : KindOrdinal), 1 ≤ k.toNat → k.toNat ≤ 3 →
      lookup tc x k ≠ tc.code .invalid) ∧
    ∀ x : RoadTable, lookup tc x 0 = tc.code .invalid

/-- MD_INVALID and MD_NO_TURN never answer the same byte. -/
def Obligations.InvalidIsNotNoTurn : Prop :=
  ∀ (s : State) (r r' : DataWord), s.params.typeCodes.injective = true →
    CompletesWith .mdInvalid s r → CompletesWith .mdNoTurn s r' → r ≠ r'

/-! ### Hosts -/

/-- When the port is free it takes the head of the issue order of one host that waits for no other, and leaves every
other host's alone; where there is no such host it waits. Each host whose head waits for nothing is taken under
some arbiter, so every interleaving that keeps the hosts' own orders and their synchronization is a run. -/
def Obligations.AcceptanceKeepsEachHostsOrder : Prop :=
  ∀ s : State, s.resetIn = false → s.request = none → s.response = none →
    (∀ (arbiter : Nat → Nat) (t : State), stepWith arbiter s = .next t →
      (t = s ∧ ∀ h x rest, s.sendsOf h = x :: rest →
        ∃ p ∈ x.after, (s.receivedOf p.1).length < p.2) ∨
      ∃ h x rest, s.sendsOf h = x :: rest ∧ (∀ p ∈ x.after, p.2 ≤ (s.receivedOf p.1).length) ∧
        t.request = some x.request ∧ t.owner = some h ∧
        t.sendsOf h = rest ∧ (∀ h', h' ≠ h → t.sendsOf h' = s.sendsOf h') ∧
        (∀ h', t.receivedOf h' = s.receivedOf h') ∧
        t.params = s.params ∧ t.count = s.count ∧ t.buf = s.buf) ∧
    ∀ h x rest, s.sendsOf h = x :: rest → (∀ p ∈ x.after, p.2 ≤ (s.receivedOf p.1).length) →
      ∃ arbiter t, stepWith arbiter s = .next t ∧ t.owner = some h ∧ t.request = some x.request

/-- Under the single-writer discipline (R205) nothing depends on how the hosts' commands interleave. Whatever the
arbiter, every step keeps the invariant, the discipline, and the elements and responses the machine will end
with; in a state where the run is over those are the elements it holds and the responses the hosts have
received; so any two runs from one state that are over hold the same elements in the same order, and every
host has received the same responses. For the elements it is enough that no other host inserts. -/
def Obligations.SingleWriterFixesTheElements : Prop :=
  (∀ (arbiter : Nat → Nat) (w : Nat) (s t : State), s.Inv → s.resetIn = false →
    stepWith arbiter s = .next t →
    t.Inv ∧ t.resetIn = false ∧ t.agents.length = s.agents.length ∧
    (s.SingleWriter w → t.SingleWriter w ∧ t.finalElems w = s.finalElems w) ∧
    (s.Disciplined w →
      t.Disciplined w ∧ ∀ h < s.agents.length, t.finalReceived w h = s.finalReceived w h)) ∧
  (∀ (w : Nat) (s : State), s.RunOver →
    s.finalElems w = s.elems ∧ ∀ h, s.finalReceived w h = s.receivedOf h) ∧
  ∀ (arbiter arbiter' : Nat → Nat) (n n' w : Nat) (s t t' : State), s.Inv → s.resetIn = false →
    runWith arbiter n s = some t → runWith arbiter' n' s = some t' → t.RunOver → t'.RunOver →
    (s.SingleWriter w → t.elems = t'.elems) ∧
    (s.Disciplined w → ∀ h < s.agents.length, t.receivedOf h = t'.receivedOf h)

/-! ### The assembler -/

/-- A line is refused exactly when an operand does not fit its field, line by line of R75: a T number above 31, an
M number above 7, a K number above 255, a D number above 255, a DATA value above 2^64 - 1. A label or a name
always fits, and a line without operands is never refused. -/
def Obligations.AssemblerRefusesWhatDoesNotFit : Prop :=
  ∀ tc : TypeCodes,
    let tBig (t : TOperand) : Prop := ∃ n, t = .num n ∧ 31 < n
    let mBig (m : MOperand) : Prop := ∃ n, m = .num n ∧ 7 < n
    let kBig (k : KOperand) : Prop := ∃ n, k = .num n ∧ 255 < n
    (∀ v, assemble tc (.seqInsert v) = none ↔ 2 ^ 64 - 1 < v) ∧
    (∀ i, assemble tc (.seqRetrieve i) = none ↔ 2 ^ 64 - 1 < i) ∧
    (∀ j, assemble tc (.seqByteRead j) = none ↔ 2 ^ 64 - 1 < j) ∧
    (∀ t m, assemble tc (.mdMake t m) = none ↔ tBig t ∨ mBig m) ∧
    (∀ k m, assemble tc (.mdRemain k m) = none ↔ kBig k ∨ mBig m) ∧
    (∀ k m, assemble tc (.mdEnter k m) = none ↔ kBig k ∨ mBig m) ∧
    (∀ k m, assemble tc (.mdExit k m) = none ↔ kBig k ∨ mBig m) ∧
    (∀ k m, assemble tc (.mdEnterAndExit k m) = none ↔ kBig k ∨ mBig m) ∧
    (∀ k m, assemble tc (.mdEnterAtExit k m) = none ↔ kBig k ∨ mBig m) ∧
    (∀ m, assemble tc (.mdSuppressed m) = none ↔ mBig m) ∧
    (∀ d1 d2, assemble tc (.mdEq d1 d2) = none ↔ 255 < d1 ∨ 255 < d2) ∧
    (∀ d1 d2, assemble tc (.mdNe d1 d2) = none ↔ 255 < d1 ∨ 255 < d2) ∧
    (∀ d, assemble tc (.mdGetType d) = none ↔ 255 < d) ∧
    (∀ d, assemble tc (.mdGetModifier d) = none ↔ 255 < d) ∧
    ∀ line ∈ [AsmLine.seqSize, .seqWidth, .seqByteLen, .mdInvalid, .mdNoTurn, .mdDefault],
      assemble tc line ≠ none

/-- The CMD and DATA columns of R75 for all nineteen lines, with every operand that fits, written as a number, a
label or a name (a T label is its TypeCode); `md.default` is `md.invalid` (R76). -/
def Obligations.AssembledWordsFollowTheSyntaxTable : Prop :=
  ∀ tc : TypeCodes,
    (∀ v ≤ 2 ^ 64 - 1, LineIs tc (.seqInsert v) 0x01 v) ∧
    (∀ i ≤ 2 ^ 64 - 1, LineIs tc (.seqRetrieve i) 0x02 i) ∧
    LineIs tc .seqSize 0x03 0 ∧
    LineIs tc .seqWidth 0x04 0 ∧
    LineIs tc .seqByteLen 0x05 0 ∧
    (∀ j ≤ 2 ^ 64 - 1, LineIs tc (.seqByteRead j) 0x06 j) ∧
    LineIs tc .mdInvalid 0x10 0 ∧
    LineIs tc .mdNoTurn 0x11 0 ∧
    (∀ t m, tNumber tc t ≤ 31 → mNumber m ≤ 7 →
      LineIs tc (.mdMake t m) (mNumber m * 2 ^ 13 + tNumber tc t * 2 ^ 8 + 0x12) 0) ∧
    (∀ k m, kNumber k ≤ 255 → mNumber m ≤ 7 →
      LineIs tc (.mdRemain k m) (kNumber k * 2 ^ 16 + mNumber m * 2 ^ 13 + 0x13) 0 ∧
      LineIs tc (.mdEnter k m) (kNumber k * 2 ^ 16 + mNumber m * 2 ^ 13 + 0x14) 0 ∧
      LineIs tc (.mdExit k m) (kNumber k * 2 ^ 16 + mNumber m * 2 ^ 13 + 0x15) 0 ∧
      LineIs tc (.mdEnterAndExit k m) (kNumber k * 2 ^ 16 + mNumber m * 2 ^ 13 + 0x16) 0 ∧
      LineIs tc (.mdEnterAtExit k m) (kNumber k * 2 ^ 16 + mNumber m * 2 ^ 13 + 0x17) 0) ∧
    (∀ m, mNumber m ≤ 7 → LineIs tc (.mdSuppressed m) (mNumber m * 2 ^ 13 + 0x18) 0) ∧
    (∀ d1 d2, d1 ≤ 255 → d2 ≤ 255 →
      LineIs tc (.mdEq d1 d2) (d2 * 2 ^ 16 + d1 * 2 ^ 8 + 0x19) 0 ∧
      LineIs tc (.mdNe d1 d2) (d2 * 2 ^ 16 + d1 * 2 ^ 8 + 0x1A) 0) ∧
    (∀ d ≤ 255, LineIs tc (.mdGetType d) (d * 2 ^ 8 + 0x1B) 0 ∧
      LineIs tc (.mdGetModifier d) (d * 2 ^ 8 + 0x1C) 0) ∧
    LineIs tc .mdDefault 0x10 0 ∧ assemble tc .mdDefault = assemble tc .mdInvalid
end

