-- ==== Sys2Proof/Laws/Decode.lean ====
section
/-! SUPPORT. What the decoder can answer, and the fields of the words the encoder writes. -/

namespace Sys2Proof

/-- All that the decoder does when it accepts: the opcode's row, its reserved bits clear, its operands. -/
theorem decode_ok_cases {req : Request} {i : Instr} (h : decode req = .ok i) :
    ∃ row, opcodeRow (fieldOp req.cmd) = some row ∧ req.cmd &&& row.format.reservedMask = 0 ∧
      i = row.build req.cmd req.data := by
  unfold decode at h
  split at h
  · cases h
  · rename_i row hrow
    split at h
    · rename_i hres
      exact ⟨row, hrow, hres, by cases h; rfl⟩
    · cases h

/-- The converse: a row with its reserved bits clear is accepted. -/
theorem decode_of_row {req : Request} {row : OpcodeRow} (h : opcodeRow (fieldOp req.cmd) = some row)
    (hres : req.cmd &&& row.format.reservedMask = 0) : decode req = .ok (row.build req.cmd req.data) := by
  simp [decode, h, hres]

/-- The row an opcode has is a row of the map, and has that opcode. -/
theorem opcodeRow_mem {op : Byte} {row : OpcodeRow} (h : opcodeRow op = some row) :
    row ∈ opcodeMap ∧ row.op = op := by
  have h1 := List.find?_some h
  exact ⟨List.mem_of_find?_eq_some h, by simpa using h1⟩

/-! ### Fields of the encoder's words -/

theorem fieldOp_cmdTM (op : Byte) (t : TypeField) (m : ModField) : fieldOp (cmdTM op t m) = op := by
  apply BitVec.eq_of_getLsbD_eq
  intro i hi
  interval_cases i <;> simp [fieldOp, cmdTM]

theorem fieldT_cmdTM (op : Byte) (t : TypeField) (m : ModField) : fieldT (cmdTM op t m) = t := by
  apply BitVec.eq_of_getLsbD_eq
  intro i hi
  interval_cases i <;> simp [fieldT, cmdTM]

theorem fieldM_cmdTM (op : Byte) (t : TypeField) (m : ModField) : fieldM (cmdTM op t m) = m := by
  apply BitVec.eq_of_getLsbD_eq
  intro i hi
  interval_cases i <;> simp [fieldM, cmdTM]

theorem fieldOp_cmdKM (op : Byte) (k : KindOrdinal) (m : ModField) : fieldOp (cmdKM op k m) = op := by
  apply BitVec.eq_of_getLsbD_eq
  intro i hi
  interval_cases i <;> simp [fieldOp, cmdKM]

theorem fieldK_cmdKM (op : Byte) (k : KindOrdinal) (m : ModField) : fieldK (cmdKM op k m) = k := by
  apply BitVec.eq_of_getLsbD_eq
  intro i hi
  interval_cases i <;> simp [fieldK, cmdKM]

theorem fieldM_cmdKM (op : Byte) (k : KindOrdinal) (m : ModField) : fieldM (cmdKM op k m) = m := by
  apply BitVec.eq_of_getLsbD_eq
  intro i hi
  interval_cases i <;> simp [fieldM, cmdKM]

theorem fieldOp_cmdM (op : Byte) (m : ModField) : fieldOp (cmdM op m) = op := by
  apply BitVec.eq_of_getLsbD_eq
  intro i hi
  interval_cases i <;> simp [fieldOp, cmdM]

theorem fieldM_cmdM (op : Byte) (m : ModField) : fieldM (cmdM op m) = m := by
  apply BitVec.eq_of_getLsbD_eq
  intro i hi
  interval_cases i <;> simp [fieldM, cmdM]

theorem fieldOp_cmdD (op d1 : Byte) : fieldOp (cmdD op d1) = op := by
  apply BitVec.eq_of_getLsbD_eq
  intro i hi
  interval_cases i <;> simp [fieldOp, cmdD]

theorem fieldD1_cmdD (op d1 : Byte) : fieldD1 (cmdD op d1) = d1 := by
  apply BitVec.eq_of_getLsbD_eq
  intro i hi
  interval_cases i <;> simp [fieldD1, cmdD]

theorem fieldOp_cmdDD (op d1 d2 : Byte) : fieldOp (cmdDD op d1 d2) = op := by
  apply BitVec.eq_of_getLsbD_eq
  intro i hi
  interval_cases i <;> simp [fieldOp, cmdDD]

theorem fieldD1_cmdDD (op d1 d2 : Byte) : fieldD1 (cmdDD op d1 d2) = d1 := by
  apply BitVec.eq_of_getLsbD_eq
  intro i hi
  interval_cases i <;> simp [fieldD1, cmdDD]

theorem fieldD2_cmdDD (op d1 d2 : Byte) : fieldD2 (cmdDD op d1 d2) = d2 := by
  apply BitVec.eq_of_getLsbD_eq
  intro i hi
  interval_cases i <;> simp [fieldD2, cmdDD]

theorem reserved_cmdTM (op : Byte) (t : TypeField) (m : ModField) :
    cmdTM op t m &&& Format.reservedMask .TM = 0 := by
  apply BitVec.eq_of_getLsbD_eq
  intro i hi
  interval_cases i <;> simp [cmdTM, Format.reservedMask]

theorem reserved_cmdKM (op : Byte) (k : KindOrdinal) (m : ModField) :
    cmdKM op k m &&& Format.reservedMask .KM = 0 := by
  apply BitVec.eq_of_getLsbD_eq
  intro i hi
  interval_cases i <;> simp [cmdKM, Format.reservedMask]

theorem reserved_cmdM (op : Byte) (m : ModField) : cmdM op m &&& Format.reservedMask .M = 0 := by
  apply BitVec.eq_of_getLsbD_eq
  intro i hi
  interval_cases i <;> simp [cmdM, Format.reservedMask]

theorem reserved_cmdD (op d1 : Byte) : cmdD op d1 &&& Format.reservedMask .D = 0 := by
  apply BitVec.eq_of_getLsbD_eq
  intro i hi
  interval_cases i <;> simp [cmdD, Format.reservedMask]

theorem reserved_cmdDD (op d1 d2 : Byte) : cmdDD op d1 d2 &&& Format.reservedMask .DD = 0 := by
  apply BitVec.eq_of_getLsbD_eq
  intro i hi
  interval_cases i <;> simp [cmdDD, Format.reservedMask]

/-! ### A word is the encoder's word of its fields -/

theorem bit_of_reserved {cmd mask : CmdWord} (h : cmd &&& mask = 0) {i : Nat} (hi : mask.getLsbD i = true) :
    cmd.getLsbD i = false := by
  have := congrArg (fun x => x.getLsbD i) h
  simpa [hi] using this

theorem cmdS_fields {cmd : CmdWord} (h : cmd &&& Format.reservedMask .S = 0) :
    (fieldOp cmd).setWidth 32 = cmd := by
  apply BitVec.eq_of_getLsbD_eq
  intro i hi
  have hr := bit_of_reserved h (i := i)
  interval_cases i <;> simp [Format.reservedMask] at hr <;>
    simp [fieldOp, hr]

theorem cmdTM_fields {cmd : CmdWord} (h : cmd &&& Format.reservedMask .TM = 0) :
    cmdTM (fieldOp cmd) (fieldT cmd) (fieldM cmd) = cmd := by
  apply BitVec.eq_of_getLsbD_eq
  intro i hi
  have hr := bit_of_reserved h (i := i)
  interval_cases i <;> simp [Format.reservedMask] at hr <;>
    simp [cmdTM, fieldOp, fieldT, fieldM, hr]

theorem cmdKM_fields {cmd : CmdWord} (h : cmd &&& Format.reservedMask .KM = 0) :
    cmdKM (fieldOp cmd) (fieldK cmd) (fieldM cmd) = cmd := by
  apply BitVec.eq_of_getLsbD_eq
  intro i hi
  have hr := bit_of_reserved h (i := i)
  interval_cases i <;> simp [Format.reservedMask] at hr <;>
    simp [cmdKM, fieldOp, fieldK, fieldM, hr]

theorem cmdM_fields {cmd : CmdWord} (h : cmd &&& Format.reservedMask .M = 0) :
    cmdM (fieldOp cmd) (fieldM cmd) = cmd := by
  apply BitVec.eq_of_getLsbD_eq
  intro i hi
  have hr := bit_of_reserved h (i := i)
  interval_cases i <;> simp [Format.reservedMask] at hr <;>
    simp [cmdM, fieldOp, fieldM, hr]

theorem cmdD_fields {cmd : CmdWord} (h : cmd &&& Format.reservedMask .D = 0) :
    cmdD (fieldOp cmd) (fieldD1 cmd) = cmd := by
  apply BitVec.eq_of_getLsbD_eq
  intro i hi
  have hr := bit_of_reserved h (i := i)
  interval_cases i <;> simp [Format.reservedMask] at hr <;>
    simp [cmdD, fieldOp, fieldD1, hr]

theorem cmdDD_fields {cmd : CmdWord} (h : cmd &&& Format.reservedMask .DD = 0) :
    cmdDD (fieldOp cmd) (fieldD1 cmd) (fieldD2 cmd) = cmd := by
  apply BitVec.eq_of_getLsbD_eq
  intro i hi
  have hr := bit_of_reserved h (i := i)
  interval_cases i <;> simp [Format.reservedMask] at hr <;>
    simp [cmdDD, fieldOp, fieldD1, fieldD2, hr]

end Sys2Proof
end

