-- ==== Sys2Proof/Laws/State.lean ====
section
/-! SUPPORT. One lemma for each field of State under each update of it, true by definition, so that no proof
unfolds a record update. -/

namespace Sys2Proof.Machine

/-! ### State.answer -/

@[simp] theorem State.answer_params (s : State) (st : Status) (r : DataWord) :
    (s.answer st r).params = s.params := rfl

@[simp] theorem State.answer_count (s : State) (st : Status) (r : DataWord) :
    (s.answer st r).count = s.count := rfl

@[simp] theorem State.answer_buf (s : State) (st : Status) (r : DataWord) :
    (s.answer st r).buf = s.buf := rfl

@[simp] theorem State.answer_request (s : State) (st : Status) (r : DataWord) :
    (s.answer st r).request = none := rfl

@[simp] theorem State.answer_response (s : State) (st : Status) (r : DataWord) :
    (s.answer st r).response = some ⟨st.code, r⟩ := rfl

@[simp] theorem State.answer_resetIn (s : State) (st : Status) (r : DataWord) :
    (s.answer st r).resetIn = s.resetIn := rfl

@[simp] theorem State.answer_agents (s : State) (st : Status) (r : DataWord) :
    (s.answer st r).agents = s.agents := rfl

@[simp] theorem State.answer_owner (s : State) (st : Status) (r : DataWord) :
    (s.answer st r).owner = s.owner := rfl

@[simp] theorem State.answer_turn (s : State) (st : Status) (r : DataWord) :
    (s.answer st r).turn = s.turn := rfl

@[simp] theorem State.answer_W (s : State) (st : Status) (r : DataWord) : (s.answer st r).W = s.W := rfl

/-! ### State.respond -/

@[simp] theorem State.respond_params (s : State) (r : DataWord) :
    (s.respond r).params = s.params := rfl

@[simp] theorem State.respond_count (s : State) (r : DataWord) :
    (s.respond r).count = s.count := rfl

@[simp] theorem State.respond_buf (s : State) (r : DataWord) :
    (s.respond r).buf = s.buf := rfl

@[simp] theorem State.respond_request (s : State) (r : DataWord) :
    (s.respond r).request = none := rfl

@[simp] theorem State.respond_response (s : State) (r : DataWord) :
    (s.respond r).response = some ⟨Status.ok.code, r⟩ := rfl

@[simp] theorem State.respond_resetIn (s : State) (r : DataWord) :
    (s.respond r).resetIn = s.resetIn := rfl

@[simp] theorem State.respond_agents (s : State) (r : DataWord) :
    (s.respond r).agents = s.agents := rfl

@[simp] theorem State.respond_owner (s : State) (r : DataWord) :
    (s.respond r).owner = s.owner := rfl

@[simp] theorem State.respond_turn (s : State) (r : DataWord) :
    (s.respond r).turn = s.turn := rfl

@[simp] theorem State.respond_W (s : State) (r : DataWord) : (s.respond r).W = s.W := rfl

/-! ### State.raise -/

@[simp] theorem State.raise_params (s : State) (e : Status) :
    (s.raise e).params = s.params := rfl

@[simp] theorem State.raise_count (s : State) (e : Status) :
    (s.raise e).count = s.count := rfl

@[simp] theorem State.raise_buf (s : State) (e : Status) :
    (s.raise e).buf = s.buf := rfl

@[simp] theorem State.raise_request (s : State) (e : Status) :
    (s.raise e).request = none := rfl

@[simp] theorem State.raise_response (s : State) (e : Status) :
    (s.raise e).response = some ⟨e.code, 0⟩ := rfl

@[simp] theorem State.raise_resetIn (s : State) (e : Status) :
    (s.raise e).resetIn = s.resetIn := rfl

@[simp] theorem State.raise_agents (s : State) (e : Status) :
    (s.raise e).agents = s.agents := rfl

@[simp] theorem State.raise_owner (s : State) (e : Status) :
    (s.raise e).owner = s.owner := rfl

@[simp] theorem State.raise_turn (s : State) (e : Status) :
    (s.raise e).turn = s.turn := rfl

@[simp] theorem State.raise_W (s : State) (e : Status) : (s.raise e).W = s.W := rfl

/-! ### State.appendElem -/

@[simp] theorem State.appendElem_params (s : State) (v : DataWord) :
    (s.appendElem v).params = s.params := rfl

@[simp] theorem State.appendElem_count (s : State) (v : DataWord) :
    (s.appendElem v).count = s.count + 1 := rfl

@[simp] theorem State.appendElem_buf (s : State) (v : DataWord) :
    (s.appendElem v).buf = s.buf.appendElem s.params.bitOrder s.W s.count v := rfl

@[simp] theorem State.appendElem_request (s : State) (v : DataWord) :
    (s.appendElem v).request = s.request := rfl

@[simp] theorem State.appendElem_response (s : State) (v : DataWord) :
    (s.appendElem v).response = s.response := rfl

@[simp] theorem State.appendElem_resetIn (s : State) (v : DataWord) :
    (s.appendElem v).resetIn = s.resetIn := rfl

@[simp] theorem State.appendElem_agents (s : State) (v : DataWord) :
    (s.appendElem v).agents = s.agents := rfl

@[simp] theorem State.appendElem_owner (s : State) (v : DataWord) :
    (s.appendElem v).owner = s.owner := rfl

@[simp] theorem State.appendElem_turn (s : State) (v : DataWord) :
    (s.appendElem v).turn = s.turn := rfl

@[simp] theorem State.appendElem_W (s : State) (v : DataWord) : (s.appendElem v).W = s.W := rfl

/-! ### State.blockReset -/

@[simp] theorem State.blockReset_params (s : State) :
    s.blockReset.params = s.params := rfl

@[simp] theorem State.blockReset_count (s : State) :
    s.blockReset.count = 0 := rfl

@[simp] theorem State.blockReset_buf (s : State) :
    s.blockReset.buf = Memory.empty := rfl

@[simp] theorem State.blockReset_request (s : State) :
    s.blockReset.request = none := rfl

@[simp] theorem State.blockReset_response (s : State) :
    s.blockReset.response = none := rfl

@[simp] theorem State.blockReset_resetIn (s : State) :
    s.blockReset.resetIn = false := rfl

@[simp] theorem State.blockReset_agents (s : State) :
    s.blockReset.agents = s.agents := rfl

@[simp] theorem State.blockReset_owner (s : State) :
    s.blockReset.owner = none := rfl

@[simp] theorem State.blockReset_turn (s : State) :
    s.blockReset.turn = s.turn := rfl

@[simp] theorem State.blockReset_W (s : State) : s.blockReset.W = s.W := rfl

/-! ### State.withFetchWord -/

@[simp] theorem State.withFetchWord_params (s : State) (nbits w : Nat) :
    (s.withFetchWord nbits w).params = s.params := rfl

@[simp] theorem State.withFetchWord_count (s : State) (nbits w : Nat) :
    (s.withFetchWord nbits w).count = s.count := rfl

@[simp] theorem State.withFetchWord_buf (s : State) (nbits w : Nat) :
    (s.withFetchWord nbits w).buf = s.buf := rfl

@[simp] theorem State.withFetchWord_request (s : State) (nbits w : Nat) :
    (s.withFetchWord nbits w).request = some (requestOfBits nbits w) := rfl

@[simp] theorem State.withFetchWord_response (s : State) (nbits w : Nat) :
    (s.withFetchWord nbits w).response = s.response := rfl

@[simp] theorem State.withFetchWord_resetIn (s : State) (nbits w : Nat) :
    (s.withFetchWord nbits w).resetIn = false := rfl

@[simp] theorem State.withFetchWord_agents (s : State) (nbits w : Nat) :
    (s.withFetchWord nbits w).agents = s.agents := rfl

@[simp] theorem State.withFetchWord_owner (s : State) (nbits w : Nat) :
    (s.withFetchWord nbits w).owner = s.owner := rfl

@[simp] theorem State.withFetchWord_turn (s : State) (nbits w : Nat) :
    (s.withFetchWord nbits w).turn = s.turn := rfl

@[simp] theorem State.withFetchWord_W (s : State) (nbits w : Nat) : (s.withFetchWord nbits w).W = s.W := rfl

/-! ### State.deliver -/

@[simp] theorem State.deliver_params (s : State) (r : Response) :
    (s.deliver r).params = s.params := rfl

@[simp] theorem State.deliver_count (s : State) (r : Response) :
    (s.deliver r).count = s.count := rfl

@[simp] theorem State.deliver_buf (s : State) (r : Response) :
    (s.deliver r).buf = s.buf := rfl

@[simp] theorem State.deliver_request (s : State) (r : Response) :
    (s.deliver r).request = s.request := rfl

@[simp] theorem State.deliver_response (s : State) (r : Response) :
    (s.deliver r).response = none := rfl

@[simp] theorem State.deliver_resetIn (s : State) (r : Response) :
    (s.deliver r).resetIn = s.resetIn := rfl

@[simp] theorem State.deliver_owner (s : State) (r : Response) :
    (s.deliver r).owner = none := rfl

@[simp] theorem State.deliver_turn (s : State) (r : Response) :
    (s.deliver r).turn = s.turn := rfl

@[simp] theorem State.deliver_W (s : State) (r : Response) : (s.deliver r).W = s.W := rfl

/-! ### State.resetOf -/

@[simp] theorem State.resetOf_params (p : Params) : (State.resetOf p).params = p := rfl

@[simp] theorem State.resetOf_count (p : Params) : (State.resetOf p).count = 0 := rfl

@[simp] theorem State.resetOf_buf (p : Params) : (State.resetOf p).buf = Memory.empty := rfl

@[simp] theorem State.resetOf_request (p : Params) : (State.resetOf p).request = none := rfl

@[simp] theorem State.resetOf_response (p : Params) : (State.resetOf p).response = none := rfl

@[simp] theorem State.resetOf_resetIn (p : Params) : (State.resetOf p).resetIn = false := rfl

@[simp] theorem State.resetOf_agents (p : Params) : (State.resetOf p).agents = [] := rfl

@[simp] theorem State.resetOf_owner (p : Params) : (State.resetOf p).owner = none := rfl

@[simp] theorem State.resetOf_turn (p : Params) : (State.resetOf p).turn = 0 := rfl

end Sys2Proof.Machine
end

