-- ==== Sys2Proof/Laws/Step.lean ====
section
/-! SUPPORT. What a step can do, said once: the cases of `exec`, of the port's acceptance and of `step`. -/

namespace Sys2Proof.Machine

/-- All that a command can do when it completes: append an element and answer OK, or answer and change
nothing else, with RESULT 0 unless the answer is OK. -/
theorem exec_cases {i : Instr} {s t : State} (h : exec i s = .next t) :
    (∃ v, i = .seqInsert v ∧ s.insertStatus v = .ok ∧ t = (s.appendElem v).respond 0) ∨
      ∃ st r, t = s.answer st r ∧ (st = .ok ∨ r = 0) := by
  cases i with
  | seqInsert v =>
    by_cases hv : s.insertStatus v = .ok
    · left
      exact ⟨v, rfl, hv, by simpa [exec, execSeqInsert, hv] using h.symm⟩
    · right
      exact ⟨_, 0, by simpa [exec, execSeqInsert, hv, State.raise] using h.symm, .inr rfl⟩
  | seqRetrieve idx =>
    right
    by_cases hv : s.retrieveStatus idx = .ok
    · by_cases hp : s.elemPresent idx.toNat = true
      · exact ⟨.ok, _, by simpa [exec, execSeqRetrieve, hv, hp, State.respond] using h.symm, .inl rfl⟩
      · simp [exec, execSeqRetrieve, hv, hp] at h
    · exact ⟨_, 0, by simpa [exec, execSeqRetrieve, hv, State.raise] using h.symm, .inr rfl⟩
  | seqByteRead j =>
    right
    by_cases hv : s.byteReadStatus j = .ok
    · exact ⟨.ok, _, by simpa [exec, execSeqByteRead, hv, State.respond] using h.symm, .inl rfl⟩
    · exact ⟨_, 0, by simpa [exec, execSeqByteRead, hv, State.raise] using h.symm, .inr rfl⟩
  | _ => right; cases h; exact ⟨.ok, _, rfl, .inl rfl⟩

/-- The state after host `h` has sent the head of its issue order. -/
theorem acceptFrom_of_issue {s : State} {h : Nat} {x : Send} {rest : List Send}
    {received : List Response} (hs : s.agents[h]? = some ⟨x :: rest, received⟩) :
    s.acceptFrom h =
      { s with request := some x.request, owner := some h, turn := s.turn + 1,
               agents := s.agents.set h ⟨rest, received⟩ } := by
  simp [State.acceptFrom, hs]

/-- A host may send exactly when its next command waits for nothing. -/
theorem maySend_iff {s : State} {h : Nat} :
    s.maySend h = true ↔
      ∃ x rest received, s.agents[h]? = some ⟨x :: rest, received⟩ ∧ s.synced x = true := by
  unfold State.maySend State.sendsOf
  rcases s.agents[h]? with _ | ⟨_ | ⟨x, rest⟩, received⟩ <;> simp

theorem mem_ready {s : State} {h : Nat} : h ∈ s.ready ↔ s.maySend h = true := by
  unfold State.ready
  rw [List.mem_filter, List.mem_range]
  refine ⟨And.right, fun hm => ⟨?_, hm⟩⟩
  obtain ⟨_, _, _, hs, _⟩ := maySend_iff.1 hm
  exact (List.getElem?_eq_some_iff.1 hs).1

/-- All that the free port can do: wait, where no host may send, or take the next command of one that may. -/
theorem acceptNext_cases (arbiter : Nat → Nat) (s : State) :
    (s.acceptNext arbiter = s ∧ ∀ h, s.maySend h = false) ∨
      ∃ h x rest received, s.agents[h]? = some ⟨x :: rest, received⟩ ∧ s.synced x = true ∧
        s.acceptNext arbiter =
          { s with request := some x.request, owner := some h, turn := s.turn + 1,
                   agents := s.agents.set h ⟨rest, received⟩ } := by
  unfold State.acceptNext
  rcases hr : s.ready[arbiter s.turn % s.ready.length]? with _ | h
  · left
    refine ⟨rfl, fun h => ?_⟩
    by_contra hne
    have hm := mem_ready.2 (Bool.of_not_eq_false hne)
    have := Nat.mod_lt (arbiter s.turn) (List.length_pos_of_mem hm)
    rw [List.getElem?_eq_none_iff] at hr
    omega
  · right
    obtain ⟨x, rest, received, hs, hx⟩ := maySend_iff.1 (mem_ready.1 (List.mem_of_getElem? hr))
    exact ⟨h, x, rest, received, hs, hx, acceptFrom_of_issue hs⟩

/-- All that a step can do. -/
theorem stepWith_cases {arbiter : Nat → Nat} {s t : State} (h : stepWith arbiter s = .next t) :
    (s.resetIn = true ∧ t = s.blockReset) ∨
    (s.resetIn = false ∧ ∃ req, s.request = some req ∧
      ((∃ i, decode req = .ok i ∧ exec i s = .next t) ∨
        (∃ e, decode req = .error e ∧ t = s.raise .illegalCommand))) ∨
    (s.resetIn = false ∧ s.request = none ∧ ∃ r, s.response = some r ∧ t = s.deliver r) ∨
    (s.resetIn = false ∧ s.request = none ∧ s.response = none ∧ t = s.acceptNext arbiter) := by
  unfold stepWith at h
  split at h
  · exact .inl ⟨‹_›, by cases h; rfl⟩
  · rename_i hr
    have hr : s.resetIn = false := by simpa using hr
    split at h
    · rename_i _ _ req hreq
      refine .inr (.inl ⟨hr, req, hreq, ?_⟩)
      unfold State.perform at h
      split at h
      · exact .inl ⟨_, ‹_›, h⟩
      · exact .inr ⟨_, ‹_›, by cases h; rfl⟩
    · exact .inr (.inr (.inl ⟨hr, ‹_›, _, ‹_›, by cases h; rfl⟩))
    · exact .inr (.inr (.inr ⟨hr, ‹_›, ‹_›, by cases h; rfl⟩))

end Sys2Proof.Machine
end

