-- ==== Sys2Proof/Laws/Hosts.lean ====
section
/-! SUPPORT. The hosts' side of the port: what each update does to what a host will send and has received, and that
a command's answer depends on the state of SEQ and the parameters alone. -/

namespace Sys2Proof.Machine

/-! ### What a host will send and has received -/

theorem State.sendsOf_of_agents {s t : State} (h : t.agents = s.agents) (w : Nat) : t.sendsOf w = s.sendsOf w := by
  simp [State.sendsOf, h]

theorem State.receivedOf_of_agents {s t : State} (h : t.agents = s.agents) (w : Nat) :
    t.receivedOf w = s.receivedOf w := by
  simp [State.receivedOf, h]

theorem State.issueOf_of_agents {s t : State} (h : t.agents = s.agents) (w : Nat) : t.issueOf w = s.issueOf w := by
  simp [State.issueOf, State.sendsOf_of_agents h]

@[simp] theorem State.deliver_sendsOf (s : State) (r : Response) (w : Nat) :
    (s.deliver r).sendsOf w = s.sendsOf w := by
  simp only [State.sendsOf, State.deliver]
  rcases s.owner with _ | o
  · rfl
  · simp only [List.getElem?_modify]
    rcases s.agents[w]? with _ | a
    · rfl
    · by_cases e : o = w <;> simp [e]

@[simp] theorem State.deliver_issueOf (s : State) (r : Response) (w : Nat) :
    (s.deliver r).issueOf w = s.issueOf w := by
  simp [State.issueOf]

/-- A delivery adds the response to what its owner has received, and to nothing else. -/
theorem State.deliver_receivedOf (s : State) (r : Response) (w : Nat) :
    (s.deliver r).receivedOf w =
      if s.owner = some w ∧ w < s.agents.length then s.receivedOf w ++ [r] else s.receivedOf w := by
  simp only [State.receivedOf, State.deliver]
  rcases s.owner with _ | o
  · simp
  · simp only [List.getElem?_modify]
    rcases ha : s.agents[w]? with _ | a
    · have := List.getElem?_eq_none_iff.1 ha
      simp [Nat.not_lt.2 this]
    · have := (List.getElem?_eq_some_iff.1 ha).1
      by_cases e : o = w <;> simp [e, this]

@[simp] theorem State.deliver_agents_length (s : State) (r : Response) :
    (s.deliver r).agents.length = s.agents.length := by
  simp only [State.deliver]
  rcases s.owner with _ | o <;> simp

section Accept

variable {s : State} {h : Nat} {x : Send} {rest : List Send} {received : List Response}

theorem State.sendsOf_of_some (hs : s.agents[h]? = some ⟨x :: rest, received⟩) : s.sendsOf h = x :: rest := by
  simp [State.sendsOf, hs]

theorem State.issueOf_of_some (hs : s.agents[h]? = some ⟨x :: rest, received⟩) :
    s.issueOf h = x.request :: rest.map (·.request) := by
  simp [State.issueOf, State.sendsOf_of_some hs]

/-- Accepting a host's command takes it from that host's issue order and from no other's. -/
theorem State.acceptFrom_sendsOf (hs : s.agents[h]? = some ⟨x :: rest, received⟩) (w : Nat) :
    (s.acceptFrom h).sendsOf w = if w = h then rest else s.sendsOf w := by
  have := (List.getElem?_eq_some_iff.1 hs).1
  rw [acceptFrom_of_issue hs]
  by_cases e : w = h
  · simp [State.sendsOf, e, this]
  · simp [State.sendsOf, e, List.getElem?_set_ne (Ne.symm e)]

/-- Accepting a command delivers nothing. -/
theorem State.acceptFrom_receivedOf (hs : s.agents[h]? = some ⟨x :: rest, received⟩) (w : Nat) :
    (s.acceptFrom h).receivedOf w = s.receivedOf w := by
  have := (List.getElem?_eq_some_iff.1 hs).1
  rw [acceptFrom_of_issue hs]
  by_cases e : w = h
  · subst e
    rw [State.receivedOf, State.receivedOf, hs]
    simp [this]
  · simp [State.receivedOf, List.getElem?_set_ne (Ne.symm e)]

end Accept

/-! ### Answers depend on SEQ alone -/

/-- The two states agree on the parameters, COUNT and BUF: all that a command reads. -/
def State.SameSeq (s t : State) : Prop := t.params = s.params ∧ t.count = s.count ∧ t.buf = s.buf

theorem State.SameSeq.rfl {s : State} : s.SameSeq s := ⟨Eq.refl _, Eq.refl _, Eq.refl _⟩

theorem State.SameSeq.symm {s t : State} (h : s.SameSeq t) : t.SameSeq s :=
  ⟨h.1.symm, h.2.1.symm, h.2.2.symm⟩

theorem State.SameSeq.trans {s t u : State} (h : s.SameSeq t) (h' : t.SameSeq u) : s.SameSeq u :=
  ⟨h'.1.trans h.1, h'.2.1.trans h.2.1, h'.2.2.trans h.2.2⟩

theorem State.SameSeq.elems {s t : State} (h : s.SameSeq t) : t.elems = s.elems := by
  have hW : t.W = s.W := by simp [State.W, h.1]
  have he : t.elem = s.elem := by
    funext i
    simp [State.elem, h.1, h.2.2, hW]
  simp [State.elems, h.2.1, he]

theorem State.SameSeq.W {s t : State} (h : s.SameSeq t) : t.W = s.W := by simp [State.W, h.1]

theorem State.SameSeq.answer {s t : State} (h : s.SameSeq t) (st : Status) (r : DataWord) :
    (s.answer st r).SameSeq (t.answer st r) := h

theorem State.SameSeq.appendElem {s t : State} (h : s.SameSeq t) (v : DataWord) :
    (s.appendElem v).SameSeq (t.appendElem v) := by
  refine ⟨h.1, ?_, ?_⟩
  · simp [h.2.1]
  · simp [h.1, h.2.1, h.2.2, h.W]

theorem State.SameSeq.insertStatus {s t : State} (h : s.SameSeq t) (v : DataWord) :
    t.insertStatus v = s.insertStatus v := by
  simp [State.insertStatus, h.W, h.1, h.2.1]

theorem exec_congr {s s' t : State} {i : Instr} (hs : s.SameSeq s') (h : exec i s = .next t) :
    ∃ t', exec i s' = .next t' ∧ t.SameSeq t' ∧ t'.response = t.response := by
  cases i with
  | seqInsert v =>
    simp only [exec, execSeqInsert, hs.insertStatus] at h ⊢
    cases h
    refine ⟨_, rfl, ?_⟩
    split
    · exact ⟨(hs.appendElem v).answer .ok 0, rfl⟩
    · exact ⟨hs.answer _ 0, rfl⟩
  | seqRetrieve idx =>
    have he : s'.elem idx.toNat = s.elem idx.toNat := by simp [State.elem, hs.W, hs.1, hs.2.2]
    have hp : s'.elemPresent idx.toNat = s.elemPresent idx.toNat := by simp [State.elemPresent, hs.W, hs.2.2]
    have hst : s'.retrieveStatus idx = s.retrieveStatus idx := by simp [State.retrieveStatus, hs.2.1]
    simp only [exec, execSeqRetrieve, he, hp, hst] at h ⊢
    split at h
    · rw [if_pos ‹_›]
      split at h
      · rw [if_pos ‹_›]
        cases h
        exact ⟨_, rfl, hs.answer .ok _, rfl⟩
      · cases h
    · rw [if_neg ‹_›]
      cases h
      exact ⟨_, rfl, hs.answer _ 0, rfl⟩
  | seqByteRead j =>
    have hst : s'.byteReadStatus j = s.byteReadStatus j := by simp [State.byteReadStatus, hs.2.2]
    simp only [exec, execSeqByteRead, hst, hs.2.2] at h ⊢
    cases h
    refine ⟨_, rfl, ?_⟩
    split
    · exact ⟨hs.answer .ok _, rfl⟩
    · exact ⟨hs.answer _ 0, rfl⟩
  | _ =>
    cases h
    refine ⟨_, rfl, ⟨hs.1, hs.2.1, hs.2.2⟩, ?_⟩
    simp [State.respondDesc, State.respond, State.answer, State.typeCode, State.lookup, hs.1, hs.2.1, hs.2.2]

/-- A command performed in two states that agree on SEQ is answered alike and leaves states that agree on SEQ. -/
theorem perform_congr {s s' t : State} {req : Request} (hs : s.SameSeq s') (h : s.perform req = .next t) :
    ∃ t', s'.perform req = .next t' ∧ t.SameSeq t' ∧ t'.response = t.response := by
  unfold State.perform at h ⊢
  split at h
  · exact exec_congr hs h
  · cases h
    exact ⟨_, rfl, hs, rfl⟩

/-- A request that is no SEQ_INSERT leaves SEQ as it is. -/
theorem perform_sameSeq {s t : State} {req : Request} (hreq : insertValue req = none)
    (h : s.perform req = .next t) : s.SameSeq t := by
  unfold State.perform at h
  split at h
  · rename_i i hd
    rcases exec_cases h with ⟨v, rfl, -, -⟩ | ⟨st, r, rfl, -⟩
    · simp [insertValue, hd] at hreq
    · exact ⟨rfl, rfl, rfl⟩
  · cases h
    exact ⟨rfl, rfl, rfl⟩

/-- A request that does not read the elements and is no SEQ_INSERT is answered alike in any two states with the
same parameters. -/
theorem perform_response_congr {s s' t : State} {req : Request} (hp : s'.params = s.params)
    (hi : insertValue req = none) (hr : readsElements req = false) (h : s.perform req = .next t) :
    ∃ t', s'.perform req = .next t' ∧ t'.response = t.response := by
  unfold State.perform at h ⊢
  split at h
  · rename_i i hd
    simp only [readsElements, insertValue, hd] at hr hi
    cases i with
    | seqInsert v => simp at hi
    | seqRetrieve idx => simp [Instr.readsElements] at hr
    | seqSize => simp [Instr.readsElements] at hr
    | seqByteLen => simp [Instr.readsElements] at hr
    | seqByteRead j => simp [Instr.readsElements] at hr
    | _ =>
      cases h
      exact ⟨_, rfl, by simp [State.respondDesc, State.respond, State.answer, State.typeCode, State.lookup, hp]⟩
  · cases h
    exact ⟨_, rfl, rfl⟩

end Sys2Proof.Machine
end

