-- ==== Sys2Proof/Laws/Memory.lean ====
section
/-! SUPPORT. What the operations on BUF do: reads after writes, the canonical form, equality of memories, and
the bits of an element. Each operation has one lemma that says all it does. -/

namespace Sys2Proof.Machine

/-! ### Lists of cells -/

theorem cellsRead_of_lt {len lo : Nat} {cs : List Host.Cell} (h : cellsWf len lo cs = true) {j : Nat}
    (hj : j < lo) : cellsRead cs j = 0#8 := by
  induction cs generalizing lo with
  | nil => rfl
  | cons c cs ih =>
    obtain ⟨a, v⟩ := c
    simp only [cellsWf, Bool.and_eq_true, decide_eq_true_eq] at h
    rw [cellsRead, if_neg (by omega)]
    exact ih h.2 (by omega)

theorem cellsRead_of_le {len lo : Nat} {cs : List Host.Cell} (h : cellsWf len lo cs = true) {j : Nat}
    (hj : len ≤ j) : cellsRead cs j = 0#8 := by
  induction cs generalizing lo with
  | nil => rfl
  | cons c cs ih =>
    obtain ⟨a, v⟩ := c
    simp only [cellsWf, Bool.and_eq_true, decide_eq_true_eq] at h
    rw [cellsRead, if_neg (by omega)]
    exact ih h.2

theorem cellsWf_mono {len len' lo lo' : Nat} {cs : List Host.Cell} (h : cellsWf len lo cs = true)
    (hlen : len ≤ len') (hlo : lo' ≤ lo) : cellsWf len' lo' cs = true := by
  induction cs generalizing lo lo' with
  | nil => rfl
  | cons c cs ih =>
    obtain ⟨a, v⟩ := c
    simp only [cellsWf, Bool.and_eq_true, decide_eq_true_eq] at h ⊢
    exact ⟨⟨⟨by omega, by omega⟩, h.1.2⟩, ih h.2 le_rfl⟩

theorem cellsRead_cellsWrite {len lo : Nat} {cs : List Host.Cell} (h : cellsWf len lo cs = true)
    (j j' : Nat) (x : Byte) :
    cellsRead (cellsWrite cs j x) j' = if j' = j then x else cellsRead cs j' := by
  induction cs generalizing lo with
  | nil =>
    by_cases hx : x = 0#8
    · simp [cellsWrite, cellsRead, hx]
    · simp [cellsWrite, cellsRead, hx]
  | cons c cs ih =>
    obtain ⟨a, v⟩ := c
    simp only [cellsWf, Bool.and_eq_true, decide_eq_true_eq] at h
    by_cases hlt : j < a
    · have hz : cellsRead ((a, v) :: cs) j = 0#8 := by
        rw [cellsRead, if_neg (by omega)]
        exact cellsRead_of_lt h.2 (by omega)
      by_cases hx : x = 0#8
      · by_cases hj : j' = j
        · subst hj; simp [cellsWrite, hlt, hx, hz]
        · simp [cellsWrite, hlt, hx, hj]
      · simp [cellsWrite, hlt, hx, cellsRead]
    · by_cases heq : j = a
      · subst heq
        have hz : cellsRead cs j = 0#8 := cellsRead_of_lt h.2 (by omega)
        by_cases hx : x = 0#8
        · by_cases hj : j' = j
          · subst hj; simp [cellsWrite, hx, hz]
          · simp [cellsWrite, hx, cellsRead, hj]
        · by_cases hj : j' = j <;> simp [cellsWrite, hx, cellsRead, hj]
      · have hw := ih h.2
        by_cases hj : j' = a
        · subst hj
          simp [cellsWrite, hlt, heq, cellsRead, Ne.symm heq]
        · simp [cellsWrite, hlt, heq, cellsRead, hj, hw]

theorem cellsWf_cellsWrite {len lo : Nat} {cs : List Host.Cell} (h : cellsWf len lo cs = true)
    {j : Nat} (hlo : lo ≤ j) (hlen : j < len) (x : Byte) : cellsWf len lo (cellsWrite cs j x) = true := by
  induction cs generalizing lo with
  | nil =>
    by_cases hx : x = 0#8
    · simp [cellsWrite, cellsWf, hx]
    · simp [cellsWrite, cellsWf, hx, hlo, hlen]
  | cons c cs ih =>
    obtain ⟨a, v⟩ := c
    have h' := h
    simp only [cellsWf, Bool.and_eq_true, decide_eq_true_eq] at h'
    obtain ⟨⟨⟨h1, h2⟩, h3⟩, h4⟩ := h'
    by_cases hlt : j < a
    · by_cases hx : x = 0#8
      · simpa [cellsWrite, hlt, hx] using h
      · have hja : j + 1 ≤ a := hlt
        simp [cellsWrite, hlt, hx, cellsWf, hlo, hlen, h2, h3, h4, hja]
    · by_cases heq : j = a
      · subst heq
        by_cases hx : x = 0#8
        · simpa [cellsWrite, hx] using cellsWf_mono h4 le_rfl (by omega)
        · simp [cellsWrite, hx, cellsWf, hlo, hlen, h4]
      · have hrest := ih h4 (by omega)
        simp [cellsWrite, hlt, heq, cellsWf, h1, h2, h3, hrest]

theorem cells_ext {len lo : Nat} {cs cs' : List Host.Cell} (h : cellsWf len lo cs = true)
    (h' : cellsWf len lo cs' = true) (hr : ∀ j, cellsRead cs j = cellsRead cs' j) : cs = cs' := by
  induction cs generalizing lo cs' with
  | nil =>
    cases cs' with
    | nil => rfl
    | cons c' cs' =>
      obtain ⟨a', v'⟩ := c'
      simp only [cellsWf, Bool.and_eq_true, decide_eq_true_eq] at h'
      have := hr a'
      simp only [cellsRead, if_true] at this
      exact absurd this.symm h'.1.2
  | cons c cs ih =>
    obtain ⟨a, v⟩ := c
    simp only [cellsWf, Bool.and_eq_true, decide_eq_true_eq] at h
    cases cs' with
    | nil =>
      have := hr a
      simp only [cellsRead, if_true] at this
      exact absurd this h.1.2
    | cons c' cs' =>
      obtain ⟨a', v'⟩ := c'
      simp only [cellsWf, Bool.and_eq_true, decide_eq_true_eq] at h'
      have haa : a = a' := by
        rcases Nat.lt_trichotomy a a' with hlt | heq | hgt
        · have := hr a
          rw [cellsRead, if_pos rfl, cellsRead, if_neg (by omega),
            cellsRead_of_lt h'.2 (by omega)] at this
          exact absurd this h.1.2
        · exact heq
        · have := hr a'
          rw [cellsRead, if_neg (by omega), cellsRead_of_lt h.2 (by omega), cellsRead, if_pos rfl] at this
          exact absurd this.symm h'.1.2
      subst haa
      have hv : v = v' := by simpa [cellsRead] using hr a
      subst hv
      have htail : ∀ j, cellsRead cs j = cellsRead cs' j := by
        intro j
        by_cases hj : j = a
        · subst hj
          rw [cellsRead_of_lt h.2 (by omega), cellsRead_of_lt h'.2 (by omega)]
        · simpa [cellsRead, hj] using hr j
      rw [ih h.2 h'.2 htail]

/-! ### Memories -/

@[simp] theorem Memory.empty_len : Memory.empty.len = 0 := rfl

@[simp] theorem Memory.empty_read (j : Nat) : Memory.empty.read j = 0 := rfl

theorem Memory.empty_wf : Memory.empty.wf = true := rfl

/-- Equal lengths and equal bytes: the same memory. -/
theorem Memory.eq_of_read {m m' : Memory} (h : m.wf = true) (h' : m'.wf = true) (hl : m.len = m'.len)
    (hr : ∀ j, m.read j = m'.read j) : m = m' := by
  obtain ⟨l, cs⟩ := m
  obtain ⟨l', cs'⟩ := m'
  simp only at hl
  subst hl
  exact congrArg (Memory.mk l) (cells_ext h h' hr)

/-- A byte beyond the buffer reads as zero. -/
theorem Memory.read_of_le {m : Memory} (h : m.wf = true) {j : Nat} (hj : m.len ≤ j) : m.read j = 0#8 :=
  cellsRead_of_le h hj

@[simp] theorem Memory.write_len (m : Memory) (j : Nat) (x : Byte) : (m.write j x).len = m.len := by
  unfold Memory.write; split <;> rfl

/-- All that a write does: an existing byte takes the value, every other byte is kept. -/
theorem Memory.read_write {m : Memory} (h : m.wf = true) {j : Nat} (hj : j < m.len) (x : Byte) (j' : Nat) :
    (m.write j x).read j' = if j' = j then x else m.read j' := by
  simp only [Memory.write, hj, if_true, Memory.read]
  exact cellsRead_cellsWrite h j j' x

theorem Memory.write_wf {m : Memory} (h : m.wf = true) (j : Nat) (x : Byte) : (m.write j x).wf = true := by
  unfold Memory.write
  split
  · exact cellsWf_cellsWrite h (Nat.zero_le _) ‹_› x
  · exact h

/-- A write to a byte that does not exist changes nothing. -/
theorem Memory.write_of_le {m : Memory} {j : Nat} (hj : m.len ≤ j) (x : Byte) : m.write j x = m := by
  simp [Memory.write, Nat.not_lt.mpr hj]

/-- All that appending zero bytes does. -/
theorem Memory.appendZeroBytes_eq (n : Nat) (m : Memory) :
    m.appendZeroBytes n = { m with len := m.len + n } := by
  induction n generalizing m with
  | zero => rfl
  | succ n ih =>
    rw [Memory.appendZeroBytes, ih]
    simp [Memory.appendZeroByte, Nat.add_comm, Nat.add_left_comm]

/-- All that growing does: the length becomes at least `n`; the bytes are kept and the new ones are zero. -/
theorem Memory.growTo_eq (m : Memory) (n : Nat) : m.growTo n = { m with len := max m.len n } := by
  rw [Memory.growTo, Memory.appendZeroBytes_eq]
  congr 1
  omega

@[simp] theorem Memory.growTo_len (m : Memory) (n : Nat) : (m.growTo n).len = max m.len n := by
  rw [Memory.growTo_eq]

@[simp] theorem Memory.growTo_read (m : Memory) (n j : Nat) : (m.growTo n).read j = m.read j := by
  rw [Memory.growTo_eq]; rfl

theorem Memory.growTo_wf {m : Memory} (h : m.wf = true) (n : Nat) : (m.growTo n).wf = true := by
  rw [Memory.growTo_eq]
  exact cellsWf_mono h (Nat.le_max_left _ _) le_rfl

/-! ### Bits -/

theorem physBit_byte (o : BitOrder) (b : Nat) : (physBit o b).1 = b / 8 := by cases o <;> rfl

theorem physBit_pos_lt (o : BitOrder) (b : Nat) : (physBit o b).2 < 8 := by
  cases o <;> simp only [physBit] <;> omega

/-- Different offsets name different bits. -/
theorem physBit_injective (o : BitOrder) {b b' : Nat} (h1 : (physBit o b).1 = (physBit o b').1)
    (h2 : (physBit o b).2 = (physBit o b').2) : b = b' := by
  cases o <;> simp only [physBit] at h1 h2 <;> omega

theorem setBitByte_getLsbD (y : Byte) (x : Bool) {p q : Nat} (hp : p < 8) (hq : q < 8) :
    (y &&& (0xFF - 1#8 <<< p) ||| (BitVec.ofBool x).setWidth 8 <<< p).getLsbD q =
      if q = p then x else y.getLsbD q := by
  interval_cases p <;> interval_cases q <;> cases x <;> simp

@[simp] theorem Memory.setBit_len (m : Memory) (o : BitOrder) (b : Nat) (x : Bool) :
    (m.setBit o b x).len = m.len := by simp [Memory.setBit]

theorem Memory.setBit_wf {m : Memory} (h : m.wf = true) (o : BitOrder) (b : Nat) (x : Bool) :
    (m.setBit o b x).wf = true := Memory.write_wf h _ _

/-- All that SetBit does to the bits of BUF. -/
theorem Memory.getBit_setBit {m : Memory} (h : m.wf = true) (o : BitOrder) {b : Nat} (hb : b < 8 * m.len)
    (x : Bool) (b' : Nat) : (m.setBit o b x).getBit o b' = if b' = b then x else m.getBit o b' := by
  have hj : (physBit o b).1 < m.len := by rw [physBit_byte]; omega
  simp only [Memory.getBit, Memory.setBit, Memory.read_write h hj]
  by_cases h1 : (physBit o b').1 = (physBit o b).1
  · rw [if_pos h1, setBitByte_getLsbD _ _ (physBit_pos_lt o b) (physBit_pos_lt o b')]
    by_cases h2 : (physBit o b').2 = (physBit o b).2
    · rw [if_pos h2, if_pos (physBit_injective o h1 h2)]
    · rw [if_neg h2, if_neg (fun hbb => h2 (by rw [hbb])), h1]
  · rw [if_neg h1, if_neg (fun hbb => h1 (by rw [hbb]))]

/-- SetBit touches one byte. -/
theorem Memory.read_setBit_of_ne {m : Memory} (h : m.wf = true) (o : BitOrder) {b j : Nat} (hj : j ≠ b / 8)
    (x : Bool) : (m.setBit o b x).read j = m.read j := by
  by_cases hb : (physBit o b).1 < m.len
  · rw [Memory.setBit, Memory.read_write h hb, if_neg (by rw [physBit_byte]; exact hj)]
  · rw [Memory.setBit, Memory.write_of_le (Nat.not_lt.mp hb)]

theorem Memory.getBit_of_le {m : Memory} (h : m.wf = true) (o : BitOrder) {b : Nat} (hb : 8 * m.len ≤ b) :
    m.getBit o b = false := by
  rw [Memory.getBit, Memory.read_of_le h (by rw [physBit_byte]; omega)]
  simp

@[simp] theorem Memory.growTo_getBit (m : Memory) (n : Nat) (o : BitOrder) (b : Nat) :
    (m.growTo n).getBit o b = m.getBit o b := by simp [Memory.getBit]

/-- Bytes that agree in every bit agree. -/
theorem Memory.read_eq_of_getBit {m m' : Memory} (o : BitOrder) {j : Nat}
    (h : ∀ b, b / 8 = j → m.getBit o b = m'.getBit o b) : m.read j = m'.read j := by
  apply BitVec.eq_of_getLsbD_eq
  intro q hq
  cases o with
  | lsbFirst =>
    have := h (8 * j + q) (by omega)
    simpa [Memory.getBit, physBit, show (8 * j + q) / 8 = j by omega, show (8 * j + q) % 8 = q by omega]
      using this
  | msbFirst =>
    have := h (8 * j + (7 - q)) (by omega)
    simpa only [Memory.getBit, physBit, show (8 * j + (7 - q)) / 8 = j by omega,
      show 7 - (8 * j + (7 - q)) % 8 = q by omega] using this

/-! ### Elements -/

@[simp] theorem Memory.writeElem_len (m : Memory) (o : BitOrder) (w i : Nat) (v : DataWord) (n : Nat) :
    (m.writeElem o w i v n).len = m.len := by
  induction n with
  | zero => rfl
  | succ n ih => simp [Memory.writeElem, ih]

theorem Memory.writeElem_wf {m : Memory} (h : m.wf = true) (o : BitOrder) (w i : Nat) (v : DataWord)
    (n : Nat) : (m.writeElem o w i v n).wf = true := by
  induction n with
  | zero => exact h
  | succ n ih => exact Memory.setBit_wf ih _ _ _

/-- All that SEQ_INSERT's loop does to the bits of BUF. -/
theorem Memory.getBit_writeElem {m : Memory} (h : m.wf = true) (o : BitOrder) (w i : Nat) (v : DataWord)
    {n : Nat} (hn : i * w + n ≤ 8 * m.len) (b : Nat) :
    (m.writeElem o w i v n).getBit o b =
      if i * w ≤ b ∧ b < i * w + n then valueBit o w v (b - i * w) else m.getBit o b := by
  induction n with
  | zero => rw [if_neg (by omega)]; rfl
  | succ n ih =>
    rw [Memory.writeElem, Memory.getBit_setBit (Memory.writeElem_wf h o w i v n) o (by simp; omega),
      ih (by omega)]
    by_cases hb : b = i * w + n
    · subst hb
      rw [if_pos rfl, if_pos (by omega), Nat.add_sub_cancel_left]
    · rw [if_neg hb]
      by_cases hb2 : i * w ≤ b ∧ b < i * w + n
      · rw [if_pos hb2, if_pos (by omega)]
      · rw [if_neg hb2, if_neg (by omega)]

theorem ceilDiv_le_iff (a n : Nat) : ceilDiv a 8 ≤ n ↔ a ≤ 8 * n := by
  unfold ceilDiv; omega

theorem le_ceilDiv (a : Nat) : a ≤ 8 * ceilDiv a 8 := by
  unfold ceilDiv; omega

@[simp] theorem Memory.appendElem_len (m : Memory) (o : BitOrder) (w i : Nat) (v : DataWord) :
    (m.appendElem o w i v).len = max m.len (ceilDiv ((i + 1) * w) 8) := by
  simp [Memory.appendElem]

theorem Memory.appendElem_wf {m : Memory} (h : m.wf = true) (o : BitOrder) (w i : Nat) (v : DataWord) :
    (m.appendElem o w i v).wf = true := Memory.writeElem_wf (Memory.growTo_wf h _) _ _ _ _ _

/-- All that appending an element does to the bits of BUF: every write of it is to an existing byte. -/
theorem Memory.getBit_appendElem {m : Memory} (h : m.wf = true) (o : BitOrder) (w i : Nat) (v : DataWord)
    (b : Nat) :
    (m.appendElem o w i v).getBit o b =
      if i * w ≤ b ∧ b < i * w + w then valueBit o w v (b - i * w) else m.getBit o b := by
  rw [Memory.appendElem, Memory.getBit_writeElem (Memory.growTo_wf h _), Memory.growTo_getBit]
  have := le_ceilDiv ((i + 1) * w)
  have : (i + 1) * w = i * w + w := Nat.succ_mul i w
  simp only [Memory.growTo_len]
  omega

theorem elemLoop_getLsbD (m : Memory) (o : BitOrder) (w i : Nat) {n : Nat} (hn : n ≤ w) {q : Nat}
    (hq : q < w) (hw : w ≤ 64) :
    (m.elemLoop o w i n).getLsbD q =
      (decide (valuePos o w q < n) && m.getBit o (i * w + valuePos o w q)) := by
  induction n with
  | zero => simp [Memory.elemLoop]
  | succ n ih =>
    rw [Memory.elemLoop, BitVec.getLsbD_or, ih (by omega), BitVec.getLsbD_shiftLeft]
    have hq64 : q < 64 := by omega
    by_cases hk : valuePos o w q = n
    · have hqp : q = valuePos o w n := by
        cases o <;> simp only [valuePos] at hk ⊢ <;> omega
      have : valuePos o w n < 64 := by omega
      simp [hqp, this]
      subst hk
      rw [← hqp]
      simp
    · have hne : q ≠ valuePos o w n := by
        cases o <;> simp only [valuePos] at hk ⊢ <;> omega
      by_cases hlt : q < valuePos o w n
      · have : valuePos o w q < n + 1 ↔ valuePos o w q < n := by omega
        simp [hlt, this]
      · have h1 : q - valuePos o w n ≠ 0 := by omega
        have : valuePos o w q < n + 1 ↔ valuePos o w q < n := by omega
        simp [this, h1, BitVec.getLsbD_setWidth, BitVec.getLsbD_ofBool]

theorem elemLoop_getLsbD_of_le (m : Memory) (o : BitOrder) (w i : Nat) {n : Nat} (hn : n ≤ w) {q : Nat}
    (hq : w ≤ q) : (m.elemLoop o w i n).getLsbD q = false := by
  induction n with
  | zero => simp [Memory.elemLoop]
  | succ n ih =>
    rw [Memory.elemLoop, BitVec.getLsbD_or, ih (by omega), BitVec.getLsbD_shiftLeft]
    have hlt : valuePos o w n < q := by cases o <;> simp only [valuePos] <;> omega
    have h1 : q - valuePos o w n ≠ 0 := by omega
    simp [h1, BitVec.getLsbD_setWidth, BitVec.getLsbD_ofBool]

/-- All that `Elem(i)` reads: bit q of the value is the bit at the offset R43 gives it, and no bit at or above
W is set. -/
theorem Memory.elem_getLsbD (m : Memory) (o : BitOrder) {w : Nat} (hw : w ≤ 64) (i q : Nat) :
    (m.elem o w i).getLsbD q = (decide (q < w) && m.getBit o (i * w + valuePos o w q)) := by
  by_cases hq : q < w
  · have : valuePos o w q < w := by cases o <;> simp only [valuePos] <;> omega
    rw [Memory.elem, elemLoop_getLsbD m o w i le_rfl hq hw]
    simp [hq, this]
  · rw [Memory.elem, elemLoop_getLsbD_of_le m o w i le_rfl (by omega)]
    simp [hq]

end Sys2Proof.Machine
end

