-- ==== Sys2Proof/Laws/PerInstr.lean ====
section
/-! SUPPORT. Statements made of every instruction, one lemma a constructor. -/

namespace Sys2Proof.Laws

/-- The row of spec/opcode_table.json of each command: its mask and its match. -/
def tableRow : Instr → CmdWord × CmdWord
  | .seqInsert _ => (0xFFFFFFFF, 0x00000001)
  | .seqRetrieve _ => (0xFFFFFFFF, 0x00000002)
  | .seqSize => (0xFFFFFFFF, 0x00000003)
  | .seqWidth => (0xFFFFFFFF, 0x00000004)
  | .seqByteLen => (0xFFFFFFFF, 0x00000005)
  | .seqByteRead _ => (0xFFFFFFFF, 0x00000006)
  | .mdInvalid => (0xFFFFFFFF, 0x00000010)
  | .mdNoTurn => (0xFFFFFFFF, 0x00000011)
  | .mdMake _ _ => (0xFFFF00FF, 0x00000012)
  | .mdRemain _ _ => (0xFF001FFF, 0x00000013)
  | .mdEnter _ _ => (0xFF001FFF, 0x00000014)
  | .mdExit _ _ => (0xFF001FFF, 0x00000015)
  | .mdEnterAndExit _ _ => (0xFF001FFF, 0x00000016)
  | .mdEnterAtExit _ _ => (0xFF001FFF, 0x00000017)
  | .mdSuppressed _ => (0xFFFF1FFF, 0x00000018)
  | .mdEq _ _ => (0xFF0000FF, 0x00000019)
  | .mdNe _ _ => (0xFF0000FF, 0x0000001A)
  | .mdGetType _ => (0xFFFF00FF, 0x0000001B)
  | .mdGetModifier _ => (0xFFFF00FF, 0x0000001C)

/-- The command word the encoder writes matches the command's row of the opcode table, and DATA is 0 where the
command ignores it (30_encoding.md R69, R75). -/
def EncodesTableRow.Statement (i : Instr) : Prop :=
  (encode i).cmd &&& (tableRow i).1 = (tableRow i).2 ∧ (i.readsData = false → (encode i).data = 0)

theorem EncodesTableRow.seqInsert (v : DataWord) :
    EncodesTableRow.Statement (.seqInsert v) := by
  exact ⟨by simp [encode, tableRow], by simp [Instr.readsData]⟩

theorem EncodesTableRow.seqRetrieve (idx : DataWord) :
    EncodesTableRow.Statement (.seqRetrieve idx) := by
  exact ⟨by simp [encode, tableRow], by simp [Instr.readsData]⟩

theorem EncodesTableRow.seqSize :
    EncodesTableRow.Statement (.seqSize) := by
  exact ⟨rfl, fun _ => rfl⟩

theorem EncodesTableRow.seqWidth :
    EncodesTableRow.Statement (.seqWidth) := by
  exact ⟨rfl, fun _ => rfl⟩

theorem EncodesTableRow.seqByteLen :
    EncodesTableRow.Statement (.seqByteLen) := by
  exact ⟨rfl, fun _ => rfl⟩

theorem EncodesTableRow.seqByteRead (j : DataWord) :
    EncodesTableRow.Statement (.seqByteRead j) := by
  exact ⟨by simp [encode, tableRow], by simp [Instr.readsData]⟩

theorem EncodesTableRow.mdInvalid :
    EncodesTableRow.Statement (.mdInvalid) := by
  exact ⟨rfl, fun _ => rfl⟩

theorem EncodesTableRow.mdNoTurn :
    EncodesTableRow.Statement (.mdNoTurn) := by
  exact ⟨rfl, fun _ => rfl⟩

theorem EncodesTableRow.mdMake (t : TypeField) (m : ModField) :
    EncodesTableRow.Statement (.mdMake t m) := by
  refine ⟨BitVec.eq_of_getLsbD_eq fun i hi => ?_, fun _ => rfl⟩
  interval_cases i <;> simp [encode, tableRow, cmdTM]

theorem EncodesTableRow.mdRemain (k : KindOrdinal) (m : ModField) :
    EncodesTableRow.Statement (.mdRemain k m) := by
  refine ⟨BitVec.eq_of_getLsbD_eq fun i hi => ?_, fun _ => rfl⟩
  interval_cases i <;> simp [encode, tableRow, cmdKM]

theorem EncodesTableRow.mdEnter (k : KindOrdinal) (m : ModField) :
    EncodesTableRow.Statement (.mdEnter k m) := by
  refine ⟨BitVec.eq_of_getLsbD_eq fun i hi => ?_, fun _ => rfl⟩
  interval_cases i <;> simp [encode, tableRow, cmdKM]

theorem EncodesTableRow.mdExit (k : KindOrdinal) (m : ModField) :
    EncodesTableRow.Statement (.mdExit k m) := by
  refine ⟨BitVec.eq_of_getLsbD_eq fun i hi => ?_, fun _ => rfl⟩
  interval_cases i <;> simp [encode, tableRow, cmdKM]

theorem EncodesTableRow.mdEnterAndExit (k : KindOrdinal) (m : ModField) :
    EncodesTableRow.Statement (.mdEnterAndExit k m) := by
  refine ⟨BitVec.eq_of_getLsbD_eq fun i hi => ?_, fun _ => rfl⟩
  interval_cases i <;> simp [encode, tableRow, cmdKM]

theorem EncodesTableRow.mdEnterAtExit (k : KindOrdinal) (m : ModField) :
    EncodesTableRow.Statement (.mdEnterAtExit k m) := by
  refine ⟨BitVec.eq_of_getLsbD_eq fun i hi => ?_, fun _ => rfl⟩
  interval_cases i <;> simp [encode, tableRow, cmdKM]

theorem EncodesTableRow.mdSuppressed (m : ModField) :
    EncodesTableRow.Statement (.mdSuppressed m) := by
  refine ⟨BitVec.eq_of_getLsbD_eq fun i hi => ?_, fun _ => rfl⟩
  interval_cases i <;> simp [encode, tableRow, cmdM]

theorem EncodesTableRow.mdEq (d1 : Byte) (d2 : Byte) :
    EncodesTableRow.Statement (.mdEq d1 d2) := by
  refine ⟨BitVec.eq_of_getLsbD_eq fun i hi => ?_, fun _ => rfl⟩
  interval_cases i <;> simp [encode, tableRow, cmdDD]

theorem EncodesTableRow.mdNe (d1 : Byte) (d2 : Byte) :
    EncodesTableRow.Statement (.mdNe d1 d2) := by
  refine ⟨BitVec.eq_of_getLsbD_eq fun i hi => ?_, fun _ => rfl⟩
  interval_cases i <;> simp [encode, tableRow, cmdDD]

theorem EncodesTableRow.mdGetType (d1 : Byte) :
    EncodesTableRow.Statement (.mdGetType d1) := by
  refine ⟨BitVec.eq_of_getLsbD_eq fun i hi => ?_, fun _ => rfl⟩
  interval_cases i <;> simp [encode, tableRow, cmdD]

theorem EncodesTableRow.mdGetModifier (d1 : Byte) :
    EncodesTableRow.Statement (.mdGetModifier d1) := by
  refine ⟨BitVec.eq_of_getLsbD_eq fun i hi => ?_, fun _ => rfl⟩
  interval_cases i <;> simp [encode, tableRow, cmdD]

end Sys2Proof.Laws
end

