-- ==== Sys2Proof/Tests/Slice0.lean ====
section
/-! SUPPORT. The model's own tests. Expected values are those of spec/95_test_vectors.md, or of the encoding tables
of spec/30_encoding.md; the section of the vector is named beside each. The last part shows, for each statement
that has hypotheses, a concrete state and operands that meet them all. -/

namespace Sys2Proof.Tests

-- The theorems are checked one after another: side by side they hold too many threads at once.
set_option Elab.async false

open Sys2Proof.Machine

/-! ### Helpers -/

/-- TC_TEST, the test instantiation of TypeCode (92_eei_decisions.md D11). -/
def tcTest : TypeCodes where
  invalid := 0
  noTurn := 1
  suppressed := 2
  stayOnRoundabout := 22
  enterRoundabout := 10
  enterRotary := 14
  enterRoundaboutIntersection := 18
  exitRoundabout := 13
  exitRotary := 17
  exitRoundaboutIntersection := 21
  enterAndExitRoundabout := 12
  enterAndExitRotary := 16
  enterAndExitRoundaboutIntersection := 20
  enterRoundaboutAtExit := 11
  enterRotaryAtExit := 15
  enterRoundaboutIntersectionAtExit := 19

/-- An instantiation with width `w`, the least MAX_COUNT of R7, and TC_TEST. -/
def paramsOf (w : Nat) (o : BitOrder) : Params := ⟨BitVec.ofNat 7 w, o, 399, tcTest⟩

def cellsOf : Nat → List Byte → List Host.Cell
  | _, [] => []
  | j, x :: xs => if x = 0#8 then cellsOf (j + 1) xs else (j, x) :: cellsOf (j + 1) xs

/-- A block that holds `count` elements in these backing bytes. -/
def held (w : Nat) (o : BitOrder) (count : Nat) (bytes : List Byte) : State :=
  { State.resetOf (paramsOf w o) with count := count, buf := ⟨bytes.length, cellsOf 0 bytes⟩ }

/-- A block that is just reset. -/
def fresh : State := held 33 .lsbFirst 0 []

/-- The end state of the W = 5 row of section 2 (program P1). -/
def demo : State := held 5 .lsbFirst 4 [0x3F, 0x44, 0x00]

/-- A W = 5 block that holds MAX_COUNT zeros. -/
def full : State := { State.resetOf (paramsOf 5 .lsbFirst) with count := 399, buf := ⟨250, []⟩ }

/-- STATUS and RESULT after a step. -/
def answerOf : Host.Outcome State Fault Refusal → Option (StatusWord × DataWord)
  | .next t => t.response.map fun r => (r.status, r.result)
  | _ => none

/-- COUNT and the bytes of BUF after a step. -/
def imageOf : Host.Outcome State Fault Refusal → Option (Nat × List Byte)
  | .next t => some (t.count, (List.range t.buf.len).map t.buf.read)
  | _ => none

/-! ### The checks refuse what is ill formed -/

theorem test_params_legal : (paramsOf 33 .lsbFirst).wellFormed = true := by decide +kernel

theorem test_params_5_legal : (paramsOf 5 .msbFirst).wellFormed = true := by decide +kernel

theorem test_width_zero_refused : (paramsOf 0 .lsbFirst).wellFormed = false := by decide +kernel

theorem test_width_65_refused : State.instantiate (paramsOf 65 .lsbFirst) = none := by decide +kernel

theorem test_maxCount_398_refused :
    ({ paramsOf 33 .lsbFirst with maxCount := 398 } : Params).wellFormed = false := by decide +kernel

theorem test_maxCount_2_64_refused :
    ({ paramsOf 33 .lsbFirst with maxCount := 2 ^ 64 } : Params).wellFormed = false := by decide +kernel

theorem test_equal_type_codes_refused :
    ({ tcTest with noTurn := 0 } : TypeCodes).injective = false := by decide +kernel

theorem test_asm_type_32_refused : assemble tcTest (.mdMake (.num 32) (.num 0)) = none := by decide +kernel

theorem test_asm_modifier_8_refused : assemble tcTest (.mdSuppressed (.num 8)) = none := by decide +kernel

theorem test_asm_kind_256_refused : assemble tcTest (.mdEnter (.num 256) (.num 0)) = none := by decide +kernel

theorem test_asm_descriptor_256_refused : assemble tcTest (.mdEq 0 256) = none := by decide +kernel

theorem test_asm_data_2_64_refused : assemble tcTest (.seqInsert (2 ^ 64)) = none := by decide +kernel

/-! ### Words decode to their commands (R62, R69, R75; sections 2 to 5) -/

theorem test_decode_seqInsert : decodeTableWord 96 0x0000000000000012_00000001 = some (.seqInsert 0x12) := by
  decide +kernel

theorem test_decode_seqRetrieve : decodeTableWord 32 0x00000002 = some (.seqRetrieve 0) := by decide +kernel

theorem test_decode_seqSize : decodeTableWord 32 0x00000003 = some .seqSize := by decide +kernel

theorem test_decode_seqWidth : decodeTableWord 32 0x00000004 = some .seqWidth := by decide +kernel

theorem test_decode_seqByteLen : decodeTableWord 32 0x00000005 = some .seqByteLen := by decide +kernel

theorem test_decode_seqByteRead : decodeTableWord 96 0x000000000000000C_00000006 = some (.seqByteRead 12) := by
  decide +kernel

theorem test_decode_mdInvalid : decodeTableWord 32 0x00000010 = some .mdInvalid := by decide +kernel

theorem test_decode_mdNoTurn : decodeTableWord 32 0x00000011 = some .mdNoTurn := by decide +kernel

-- 0000000000000000 mmm=010 ttttt=01010 00010010
theorem test_decode_mdMake : decodeTableWord 32 0b00000000000000000100101000010010 = some (.mdMake 10 2) := by
  decide +kernel

-- 00000000 kkkkkkkk=11001000 mmm=111 00000 00010011
theorem test_decode_mdRemain :
    decodeTableWord 32 0b00000000110010001110000000010011 = some (.mdRemain 200 7) := by decide +kernel

theorem test_decode_mdEnter : decodeTableWord 32 0x00FFE014 = some (.mdEnter 255 7) := by decide +kernel

theorem test_decode_mdExit : decodeTableWord 32 0x00026015 = some (.mdExit 2 3) := by decide +kernel

theorem test_decode_mdEnterAndExit : decodeTableWord 32 0x0003C016 = some (.mdEnterAndExit 3 6) := by
  decide +kernel

theorem test_decode_mdEnterAtExit : decodeTableWord 32 0x0001E017 = some (.mdEnterAtExit 1 7) := by
  decide +kernel

theorem test_decode_mdSuppressed : decodeTableWord 32 0x00008018 = some (.mdSuppressed 4) := by decide +kernel

-- 00000000 eeeeeeee=01101010 dddddddd=01001010 00011001
theorem test_decode_mdEq : decodeTableWord 32 0b00000000011010100100101000011001 = some (.mdEq 0x4A 0x6A) := by
  decide +kernel

theorem test_decode_mdNe : decodeTableWord 32 0x00FF001A = some (.mdNe 0x00 0xFF) := by decide +kernel

theorem test_decode_mdGetType : decodeTableWord 32 0x00004A1B = some (.mdGetType 0x4A) := by decide +kernel

theorem test_decode_mdGetModifier : decodeTableWord 32 0x00001F1C = some (.mdGetModifier 0x1F) := by
  decide +kernel

/-- Section 4: the twelve words the decoder rejects. -/
theorem test_decode_rejects :
    ([0x00000000, 0x00000007, 0x0000000F, 0x0000001D, 0x000000FF, 0x00000103, 0x80000001, 0x00000100,
      0x00002113, 0x00014A12, 0x01000018, 0x0100001B] : List Nat).map (decodeTableWord 32) =
      List.replicate 12 none := by decide +kernel

/-- Section 4: a reserved bit on an assigned opcode is named as such. -/
theorem test_decode_names_the_reason :
    (match decode ⟨0x00000103, 0⟩ with | .error e => some e | .ok _ => none) = some .reservedBitSet ∧
    (match decode ⟨0x00000007, 0⟩ with | .error e => some e | .ok _ => none) = some .unassignedOpcode := by
  decide +kernel

/-- R75 and R76: a line with names, and the pseudo-instruction. -/
theorem test_assemble_names :
    (assemble tcTest (.mdEnter (.name .roundabout) (.name .right))).map encode = some ⟨0x00014014, 0⟩ ∧
    (assemble tcTest (.mdMake (.label .enterRoundabout) (.name .right))).map encode = some ⟨0x00004A12, 0⟩ ∧
    (assemble tcTest .mdDefault).map encode = some ⟨0x00000010, 0⟩ := by decide +kernel

/-- R75 and R76: the CMD column of the syntax table, line by line, written as text. -/
theorem test_assembleText :
    (assembleText tcTest
      ("seq.insert 31 ; a value\nseq.retrieve 0x1F\nseq.size\nseq.width\nseq.bytelen\n\nseq.byteread 3\n" ++
       "md.invalid\nmd.noturn\nmd.make EnterRoundabout, Right\nmd.remain ROTARY, Straight\n" ++
       "md.enter ROUNDABOUT, Right\nmd.exit 2,3\nmd.enterexit ROUNDABOUT_INTERSECTION, Left\n" ++
       "md.enteratexit 1 , 7\nmd.suppressed 4\nmd.eq 0x4A, 0x6A\nmd.ne 0, 255\nmd.gettype 0x4a\n" ++
       "md.getmod 0x1F\n; no command\nmd.default").toList).map (List.map Request.cmd) =
    some [0x01, 0x02, 0x03, 0x04, 0x05, 0x06, 0x10, 0x11, 0x00004A12, 0x00028013, 0x00014014, 0x00026015,
      0x0003C016, 0x0001E017, 0x00008018, 0x006A4A19, 0x00FF001A, 0x00004A1B, 0x00001F1C, 0x10] := by
  decide +kernel

theorem test_assembleText_refuses :
    (["md.make 32, 0", "md.make 1", "md.suppressed", "md.mov 1, 2", "seq.insert 0x", "seq.size 1",
      "md.eq 256, 0"].map fun l => assembleText tcTest l.toList) = List.replicate 7 none := by decide +kernel

/-! ### SEQ commands: one step each (section 2, programs P1, P2 and P4) -/

theorem test_seqInsert_keeps_boundary_byte :
    imageOf (exec (.seqInsert 0x123456789) (held 33 .lsbFirst 2 [0x01, 0, 0, 0, 0xFE, 0xFF, 0xFF, 0xFF, 0x03])) =
      some (3, [0x01, 0, 0, 0, 0xFE, 0xFF, 0xFF, 0xFF, 0x27, 0x9E, 0x15, 0x8D, 0x04]) := by decide +kernel

theorem test_seqInsert_nine_bytes_msb :
    imageOf (exec (.seqInsert 0x0FEDCBA987654321)
      (held 63 .msbFirst 1 [0x24, 0x68, 0xAC, 0xF1, 0x21, 0x57, 0x9B, 0xDE])) =
      some (2, [0x24, 0x68, 0xAC, 0xF1, 0x21, 0x57, 0x9B, 0xDE,
        0x3F, 0xB7, 0x2E, 0xA6, 0x1D, 0x95, 0x0C, 0x84]) := by decide +kernel

theorem test_seqRetrieve_across_bytes :
    answerOf (exec (.seqRetrieve 2) (held 33 .msbFirst 3
      [0, 0, 0, 0, 0xFF, 0xFF, 0xFF, 0xFF, 0xE4, 0x68, 0xAC, 0xF1, 0x20])) = some (0, 0x123456789) := by
  decide +kernel

theorem test_seqRetrieve_does_not_wrap :
    answerOf (exec (.seqRetrieve 0xFFFFFFFFFFFFFFFF) demo) = some (1, 0) := by decide +kernel

theorem test_seqSize : answerOf (exec .seqSize demo) = some (0, 4) := by decide +kernel

theorem test_seqWidth : answerOf (exec .seqWidth fresh) = some (0, 33) := by decide +kernel

theorem test_seqByteLen : answerOf (exec .seqByteLen demo) = some (0, 3) := by decide +kernel

theorem test_seqByteRead : answerOf (exec (.seqByteRead 1) demo) = some (0, 0x44) := by decide +kernel

/-- Section 2, the priority of R182: a too-wide value into a full sequence. -/
theorem test_seqInsert_priority :
    answerOf (exec (.seqInsert 32) full) = some (2, 0) ∧ answerOf (exec (.seqInsert 3) full) = some (3, 0) := by
  decide +kernel

/-- Section 2, W = 64: the largest value is accepted. -/
theorem test_seqInsert_full_width :
    answerOf (exec (.seqInsert 0xFFFFFFFFFFFFFFFF) (held 64 .lsbFirst 0 [])) = some (0, 0) := by decide +kernel

/-! ### MD commands: one step each (section 3, under TC_TEST) -/

theorem test_mdInvalid : answerOf (exec .mdInvalid fresh) = some (0, 0x00) := by decide +kernel

theorem test_mdNoTurn : answerOf (exec .mdNoTurn fresh) = some (0, 0x01) := by decide +kernel

theorem test_mdMake : answerOf (exec (.mdMake 26 0) fresh) = some (0, 0x1A) := by decide +kernel

theorem test_mdRemain : answerOf (exec (.mdRemain 2 4) fresh) = some (0, 0x96) := by decide +kernel

theorem test_mdEnter : answerOf (exec (.mdEnter 3 2) fresh) = some (0, 0x52) := by decide +kernel

theorem test_mdEnter_out_of_range : answerOf (exec (.mdEnter 4 2) fresh) = some (0, 0x40) := by decide +kernel

theorem test_mdExit : answerOf (exec (.mdExit 2 3) fresh) = some (0, 0x71) := by decide +kernel

theorem test_mdEnterAndExit : answerOf (exec (.mdEnterAndExit 3 6) fresh) = some (0, 0xD4) := by decide +kernel

theorem test_mdEnterAtExit : answerOf (exec (.mdEnterAtExit 1 7) fresh) = some (0, 0xEB) := by decide +kernel

theorem test_mdSuppressed : answerOf (exec (.mdSuppressed 7) fresh) = some (0, 0xE2) := by decide +kernel

theorem test_mdEq_modifier_differs : answerOf (exec (.mdEq 0x4A 0x6A) fresh) = some (0, 0) := by decide +kernel

theorem test_mdNe : answerOf (exec (.mdNe 0x4A 0x4A) fresh) = some (0, 0) := by decide +kernel

theorem test_mdGetType : answerOf (exec (.mdGetType 0x4A) fresh) = some (0, 0x0A) := by decide +kernel

theorem test_mdGetModifier : answerOf (exec (.mdGetModifier 0x4A) fresh) = some (0, 2) := by decide +kernel

/-! ### The step -/

/-- Section 4: an illegal word is answered and changes nothing (R71). -/
theorem test_step_illegal : answerOf (step (demo.withFetchWord 32 0)) = some (4, 0) := by decide +kernel

/-- A request of the table runs as the first command after reset. -/
theorem test_step_first_after_reset :
    answerOf (step (State.reset.withFetchWord 32 0x00000003)) = some (0, 0) := by decide +kernel

/-! ### The hypotheses of the statements can be met -/

theorem demo_inv : demo.Inv where
  paramsLegal := by decide +kernel
  bufCanonical := by decide +kernel
  countBound := by decide +kernel
  lengthExact := by decide +kernel
  paddingZero := by decide +kernel
  portExclusive := fun _ => rfl
  responseLegal := fun _ h => nomatch h
  receivedLegal := fun _ h => nomatch h

theorem full_inv : full.Inv where
  paramsLegal := by decide +kernel
  bufCanonical := by decide +kernel
  countBound := by decide +kernel
  lengthExact := by decide +kernel
  paddingZero := fun b _ _ => by simp [State.bit, Memory.getBit, Memory.read, full, State.resetOf, cellsRead]
  portExclusive := fun _ => rfl
  responseLegal := fun _ h => nomatch h
  receivedLegal := fun _ h => nomatch h

/-- Two hosts: host 0 inserts twice; host 1 reads the size once host 0 has had its two responses (R205). -/
def twoHosts : State :=
  { demo with agents := [⟨[⟨⟨1, 17⟩, []⟩, ⟨⟨1, 31⟩, []⟩], []⟩, ⟨[⟨⟨3, 0⟩, [(0, 2)]⟩], []⟩] }

theorem twoHosts_inv : twoHosts.Inv where
  paramsLegal := demo_inv.paramsLegal
  bufCanonical := demo_inv.bufCanonical
  countBound := demo_inv.countBound
  lengthExact := demo_inv.lengthExact
  paddingZero := demo_inv.paddingZero
  portExclusive := fun _ => rfl
  responseLegal := fun _ h => nomatch h
  receivedLegal := by simp [twoHosts]

theorem test_hyp_EncodeOfDecode : decode ⟨0x00C8E013, 5⟩ = .ok (.mdRemain 200 7) := rfl

theorem test_hyp_IllegalOpcodeChangesNothing :
    (demo.withFetchWord 32 0x1D).resetIn = false ∧ (demo.withFetchWord 32 0x1D).request = some ⟨0x1D, 0⟩ ∧
      0x1D ≤ (0x1D : CmdWord).toNat % 256 := by decide +kernel

theorem test_hyp_ReservedBitChangesNothing :
    (demo.withFetchWord 32 0x103).resetIn = false ∧ (demo.withFetchWord 32 0x103).request = some ⟨0x103, 0⟩ ∧
      opcodeRow (fieldOp 0x103) = some ⟨0x03, .S, fun _ _ => .seqSize⟩ ∧
      Format.S.reservedMask.getLsbD 8 = true ∧ (0x103 : CmdWord).getLsbD 8 = true :=
  ⟨rfl, rfl, rfl, rfl, rfl⟩

theorem test_hyp_IgnoredDataDoesNotMatter :
    decode ⟨0x00000003, 0x1234⟩ = .ok .seqSize ∧ Instr.readsData .seqSize = false := ⟨rfl, rfl⟩

theorem test_hyp_StepPerformsTheDecodedCommand :
    (demo.withFetchWord 32 3).resetIn = false ∧ (demo.withFetchWord 32 3).request = some ⟨3, 0⟩ ∧
      decode ⟨3, 0⟩ = .ok .seqSize := ⟨rfl, rfl, rfl⟩

theorem test_hyp_FetchWordRunsNext : decodeTableWord 32 0x00004A12 = some (.mdMake 10 2) := rfl

theorem test_hyp_EveryRequestGetsOneResponse :
    ({ twoHosts with request := some ⟨2, 3⟩, owner := some 1 } : State).Inv ∧ twoHosts.resetIn = false :=
  ⟨{ twoHosts_inv with portExclusive := fun _ => rfl }, rfl⟩

theorem test_hyp_NoResponseWithoutRequest : demo.request = none ∧ step demo = .next demo := ⟨rfl, rfl⟩

theorem test_hyp_ResetEmptiesTheSequence :
    ({ demo.withFetchWord 32 1 with resetIn := true } : State).resetIn = true := rfl

theorem test_hyp_ResetMeetsTheInvariant : (paramsOf 1 .msbFirst).wellFormed = true := by decide +kernel

theorem test_hyp_StepKeepsTheInvariant :
    (demo.withFetchWord 32 3).Inv ∧
      step (demo.withFetchWord 32 3) = .next ((demo.withFetchWord 32 3).respond 4) :=
  ⟨{ demo_inv with portExclusive := fun _ => rfl }, rfl⟩

theorem test_hyp_StepNeverStops : (demo.withFetchWord 32 2).Inv :=
  { demo_inv with portExclusive := fun _ => rfl }

theorem test_hyp_ParametersNeverChange :
    step (demo.withFetchWord 32 4) = .next ((demo.withFetchWord 32 4).respond 5) := rfl

theorem test_hyp_OnlyInsertGrowsTheSequence :
    (demo.withFetchWord 32 1).buf.wf = true ∧
      step (demo.withFetchWord 32 1) = .next (((demo.withFetchWord 32 1).appendElem 0).respond 0) :=
  ⟨by decide +kernel, rfl⟩

theorem test_hyp_ErrorChangesNoState :
    step (demo.withFetchWord 32 0) = .next ((demo.withFetchWord 32 0).raise .illegalCommand) ∧
      ((demo.withFetchWord 32 0).raise .illegalCommand).response = some ⟨4, 0⟩ ∧ (4 : StatusWord) ≠ 0 :=
  ⟨rfl, rfl, by decide⟩

/-- A step at a word that does not decode, and a command that fails. -/
theorem test_hyp_ErrorIsNotSticky :
    step (demo.withFetchWord 32 0x1D) = .next ((demo.withFetchWord 32 0x1D).raise .illegalCommand) ∧
      ((demo.withFetchWord 32 0x1D).raise .illegalCommand).response = some ⟨4, 0⟩ ∧ (4 : StatusWord) ≠ 0 ∧
    exec (.seqRetrieve 4) demo = .next (demo.raise .rangeError) ∧
      (demo.raise .rangeError).response = some ⟨1, 0⟩ ∧ (1 : StatusWord) ≠ 0 :=
  ⟨rfl, rfl, by decide, rfl, rfl, by decide⟩

/-- Each status at its boundary: the last value of W bits and the one above it, the first bad index. -/
theorem test_hyp_StatusCodesHaveTheirCauses :
    answerOf (exec (.seqInsert 31) demo) = some (0, 0) ∧ answerOf (exec (.seqInsert 32) demo) = some (2, 0) ∧
    answerOf (exec (.seqInsert 31) full) = some (3, 0) ∧ answerOf (exec (.seqRetrieve 4) demo) = some (1, 0) ∧
    answerOf (exec (.seqByteRead 3) demo) = some (1, 0) := by decide +kernel

theorem test_hyp_ReadsAreIdempotent :
    (∀ v, Instr.seqSize ≠ .seqInsert v) ∧ exec .seqSize demo = .next (demo.respond 4) ∧
    exec (.seqInsert 31) demo = .next ((demo.appendElem 31).respond 0) ∧
    ((demo.appendElem 31).respond 0).response = some ⟨0, 0⟩ := by
  refine ⟨fun _ h => ?_, rfl, rfl, rfl⟩
  cases h

/-- The three clauses, each at its boundary. -/
theorem test_hyp_SeqInsertAppendsOrFails :
    demo.buf.wf = true ∧ full.buf.wf = true ∧
    2 ^ demo.W ≤ (32 : DataWord).toNat ∧
    ((31 : DataWord).toNat < 2 ^ full.W ∧ full.count = full.params.maxCount) ∧
    ((31 : DataWord).toNat < 2 ^ demo.W ∧ demo.count ≠ demo.params.maxCount) := by decide +kernel

theorem test_hyp_SeqInsertGuarantees :
    demo.Inv ∧ exec (.seqInsert 31) demo = .next ((demo.appendElem 31).respond 0) ∧
      ((demo.appendElem 31).respond 0).response = some ⟨0, 0⟩ ∧
      exec (.seqInsert 32) demo = .next (demo.raise .capacityError) ∧
      (demo.raise .capacityError).response = some ⟨2, 0⟩ := ⟨demo_inv, rfl, rfl, rfl, rfl⟩

/-- The insert of element 4 writes bytes 2 and 3 only: bytes 1 and 4 are outside its span. -/
theorem test_hyp_SeqInsertWritesOnlyItsSpan :
    demo.buf.wf = true ∧ exec (.seqInsert 31) demo = .next ((demo.appendElem 31).respond 0) ∧
      1 < demo.count * demo.W / 8 ∧
      demo.count * demo.W / 8 + (demo.count * demo.W % 8 + demo.W + 7) / 8 ≤ 4 :=
  ⟨by decide +kernel, rfl, by decide +kernel, by decide +kernel⟩

theorem test_hyp_SeqRetrieveReadsTheElement :
    demo.Inv ∧ (3 : DataWord).toNat < demo.count ∧ demo.count ≤ (4 : DataWord).toNat :=
  ⟨demo_inv, by decide +kernel, by decide +kernel⟩

theorem test_hyp_SeqRetrieveStopsWhereNoByteExists :
    (0 : DataWord).toNat < (held 5 .lsbFirst 1 []).count ∧
      8 * (held 5 .lsbFirst 1 []).buf.len < ((0 : DataWord).toNat + 1) * (held 5 .lsbFirst 1 []).W := by
  decide +kernel

theorem test_hyp_SeqSizeReadsCount : full.Inv ∧ full.count = full.params.maxCount := ⟨full_inv, rfl⟩

theorem test_hyp_SeqWidthReadsW : demo.Inv := demo_inv

theorem test_hyp_SeqByteLenReadsTheLength : full.Inv ∧ full.buf.len < 2 ^ 64 :=
  ⟨full_inv, by decide +kernel⟩

theorem test_hyp_SeqByteReadReadsTheByte :
    (2 : DataWord).toNat < demo.buf.len ∧ demo.buf.len ≤ (3 : DataWord).toNat := by decide +kernel

theorem test_hyp_PayloadIsFixedByTheElements :
    demo.Inv ∧ twoHosts.Inv ∧ demo.params = twoHosts.params ∧ demo.elems = twoHosts.elems ∧ demo ≠ twoHosts :=
  ⟨demo_inv, twoHosts_inv, rfl, rfl, by decide +kernel⟩

theorem test_hyp_ElementsFitTheirWidth : (held 64 .lsbFirst 0 []).W ≤ 64 := by decide +kernel

/-- Two buffers that agree on element 1 and differ elsewhere. -/
theorem test_hyp_NeighboursAreIndependent :
    (held 5 .lsbFirst 2 [0x3F, 0x00]).params = demo.params ∧
    ∀ b < 10, 5 ≤ b → (held 5 .lsbFirst 2 [0x20, 0x00]).bit b = demo.bit b := by decide +kernel

theorem test_hyp_RoundTrip :
    (paramsOf 5 .msbFirst).wellFormed = true ∧
    (∀ v ∈ ([31, 1, 17, 0] : List DataWord), v.toNat < 2 ^ (paramsOf 5 .msbFirst).W) ∧
    ([31, 1, 17, 0] : List DataWord).length ≤ (paramsOf 5 .msbFirst).maxCount := by
  refine ⟨test_params_5_legal, fun v hv => ?_, by decide +kernel⟩
  simp only [List.mem_cons, List.not_mem_nil, or_false] at hv
  rcases hv with rfl | rfl | rfl | rfl <;> decide +kernel

theorem test_hyp_InsertsAppendInOrder :
    demo.Inv ∧ (∀ v ∈ ([31, 0] : List DataWord), v.toNat < 2 ^ demo.W) ∧
      demo.count + ([31, 0] : List DataWord).length ≤ demo.params.maxCount := by
  refine ⟨demo_inv, fun v hv => ?_, by decide +kernel⟩
  simp only [List.mem_cons, List.not_mem_nil, or_false] at hv
  rcases hv with rfl | rfl <;> decide +kernel

theorem test_hyp_StorageSizeLaw :
    performAll [.seqSize] (State.resetOf (paramsOf 33 .lsbFirst)) =
      some ((State.resetOf (paramsOf 33 .lsbFirst)).respond 0) := rfl

theorem test_hyp_BoundaryValuesRoundTrip :
    (paramsOf 9 .lsbFirst).wellFormed = true ∧ (0x1FF : DataWord).toNat = 2 ^ (paramsOf 9 .lsbFirst).W - 1 := by
  decide +kernel

theorem test_hyp_RetrieveSeesTheInsert :
    demo.Inv ∧ exec (.seqInsert 31) demo = .next ((demo.appendElem 31).respond 0) ∧
      ((demo.appendElem 31).respond 0).count = demo.count + 1 := ⟨demo_inv, rfl, rfl⟩

/-- The widest element: nine bytes, as R46 says. -/
theorem test_hyp_ElementSpan : 1 ≤ 63 ∧ 63 ≤ 64 ∧ spanLength 63 1 = 9 ∧ 64 < spanShift 63 1 + 63 := by
  decide +kernel

/-- Section 2, W = 5: element 2 read by bytes. -/
theorem test_hyp_ByteLevelReadIsElem : 1 ≤ demo.W ∧ demo.W ≤ 64 ∧ demo.buf.elemByBytes .lsbFirst 5 2 = 17 := by
  decide +kernel

/-- Element 4 of the W = 5 block, over bytes 2 and 3, where bits 20 to 24 are zero. -/
theorem test_hyp_ByteLevelWriteIsBitLevelWrite :
    let m : Memory := ⟨4, [(0, 0x3F), (1, 0x44)]⟩
    m.wf = true ∧ (31 : DataWord).toNat < 2 ^ 5 ∧ (4 + 1) * 5 ≤ 8 * m.len ∧
      ∀ b < 25, 4 * 5 ≤ b → m.getBit .lsbFirst b = false := by decide +kernel

theorem test_hyp_MdCommandsArePure :
    IsMd (.mdEnter 1 2) = true ∧ fresh.params.typeCodes = demo.params.typeCodes ∧ fresh ≠ demo := by
  decide +kernel

/-- MD_EQ answers 1 on equal bytes, so the transitivity clause has a case; fields that differ exist. -/
theorem test_hyp_MdEqIsAnEquivalence :
    CompletesWith (.mdEq 0x4A 0x4A) demo 1 ∧ typeOf 0x4A ≠ typeOf 0x4B ∧ modOf 0x4A ≠ modOf 0x6A :=
  ⟨⟨demo.respond 1, rfl, ⟨rfl, rfl⟩, ⟨rfl, rfl, rfl, rfl, rfl, rfl, rfl⟩⟩, by decide +kernel, by decide +kernel⟩

theorem test_hyp_RoundaboutTypesAreDistinct : tcTest.injective = true := by decide +kernel

theorem test_hyp_InvalidIsNotNoTurn :
    demo.params.typeCodes.injective = true ∧ CompletesWith .mdInvalid demo 0 ∧ CompletesWith .mdNoTurn demo 1 :=
  ⟨by decide +kernel, ⟨demo.respond 0, rfl, ⟨rfl, rfl⟩, ⟨rfl, rfl, rfl, rfl, rfl, rfl, rfl⟩⟩,
    ⟨demo.respond 1, rfl, ⟨rfl, rfl⟩, ⟨rfl, rfl, rfl, rfl, rfl, rfl, rfl⟩⟩⟩

/-- Host 0 may send; host 1 waits for the two responses of host 0. -/
theorem test_hyp_AcceptanceKeepsEachHostsOrder :
    twoHosts.resetIn = false ∧ twoHosts.request = none ∧ twoHosts.response = none ∧
      twoHosts.maySend 0 = true ∧ twoHosts.maySend 1 = false ∧
      stepWith (fun _ => 1) twoHosts = .next (twoHosts.acceptFrom 0) := ⟨rfl, rfl, rfl, rfl, rfl, rfl⟩

/-- Host 0 is the writer, and host 1 waits for its last insert. -/
theorem twoHosts_disciplined : twoHosts.Disciplined 0 where
  singleWriter := fun h hne req hreq => by
    match h with
    | 0 => exact absurd rfl hne
    | 1 =>
      have : req = ⟨3, 0⟩ := by simpa [twoHosts, State.issueOf, State.sendsOf] using hreq
      subst this
      rfl
    | n + 2 => simp [twoHosts, State.issueOf, State.sendsOf] at hreq
  portInsert := fun _ h => nomatch h
  portReader := fun _ h => nomatch h
  readersWait := fun h hne before x rest hs _ => by
    match h with
    | 0 => exact absurd rfl hne
    | 1 =>
      refine ⟨2, .inr ⟨⟨⟨3, 0⟩, [(0, 2)]⟩, ?_, by decide⟩, fun req hreq => ?_⟩
      · have : before ++ [x] = [⟨⟨3, 0⟩, [(0, 2)]⟩] := by
          rcases before with _ | ⟨b, bs⟩ <;> simp_all [twoHosts, State.sendsOf]
        simp [this]
      · simp [twoHosts, demo, held, State.resetOf, State.unanswered, State.issueOf, State.sendsOf,
          State.receivedOf] at hreq
    | n + 2 => simp [twoHosts, State.sendsOf] at hs

/-- A step and a whole run of nine steps, three for each command; host 1 then knows of the six elements. -/
theorem test_hyp_SingleWriterFixesTheElements :
    twoHosts.Inv ∧ twoHosts.resetIn = false ∧ twoHosts.SingleWriter 0 ∧ twoHosts.Disciplined 0 ∧
      stepWith (fun _ => 0) twoHosts = .next (twoHosts.acceptFrom 0) ∧
      ∃ t, runWith (fun n => n) 9 twoHosts = some t ∧ t.RunOver ∧ t.receivedOf 1 = [⟨0, 6⟩] := by
  refine ⟨twoHosts_inv, rfl, twoHosts_disciplined.singleWriter, twoHosts_disciplined, rfl, _, rfl,
    ⟨rfl, rfl, fun w => ?_⟩, rfl⟩
  match w with
  | 0 => rfl
  | 1 => rfl
  | _ + 2 => rfl

/-- The last operand of each field, and a label and a name. -/
theorem test_hyp_AssembledWordsFollowTheSyntaxTable :
    (assemble tcTest (.mdMake (.num 31) (.num 7))).map encode = some ⟨0x0000FF12, 0⟩ ∧
    (assemble tcTest (.mdEnter (.num 255) (.name .sharpLeft))).map encode = some ⟨0x00FFE014, 0⟩ ∧
    (assemble tcTest (.mdNe 255 255)).map encode = some ⟨0x00FFFF1A, 0⟩ ∧
    (assemble tcTest (.seqRetrieve (2 ^ 64 - 1))).map encode = some ⟨0x02, 0xFFFFFFFFFFFFFFFF⟩ ∧
    tNumber tcTest (.label .stayOnRoundabout) = 22 := by decide +kernel

end Sys2Proof.Tests
end

section
/-! PROOFS. The scope of the model (00_scope.md section 3): the parameters of an instantiation, which of them are legal,
and that they stay what they are. -/

namespace Sys2Proof

/-! ### Legal parameters -/

theorem ManeuverType.mem_all (l : ManeuverType) : l ∈ ManeuverType.all := by cases l <;> decide

theorem ManeuverType.all_nodup : ManeuverType.all.Nodup := by decide

/-- The check on the list of names is R8's condition on the names. -/
theorem TypeCodes.injective_iff (tc : TypeCodes) : tc.injective = true ↔ Function.Injective tc.code := by
  rw [TypeCodes.injective, decide_eq_true_eq, List.nodup_map_iff_inj_on ManeuverType.all_nodup]
  constructor
  · intro h l l' hll'
    exact h l l.mem_all l' l'.mem_all hll'
  · intro h l _ l' _ hll'
    exact h hll'

theorem Params.widthLegal_iff (p : Params) : p.widthLegal = true ↔ 1 ≤ p.W ∧ p.W ≤ 64 := by
  simp [Params.widthLegal]

theorem Params.maxCountLegal_iff (p : Params) : p.maxCountLegal = true ↔ 399 ≤ p.maxCount ∧ p.maxCount < 2 ^ 64 := by
  simp [Params.maxCountLegal]

/-- The parameters of a block that exists, rule by rule (R5, R7, R8). -/
theorem Params.wellFormed_iff (p : Params) :
    p.wellFormed = true ↔
      (1 ≤ p.W ∧ p.W ≤ 64) ∧ (399 ≤ p.maxCount ∧ p.maxCount < 2 ^ 64) ∧ Function.Injective p.typeCodes.code := by
  simp only [Params.wellFormed, Bool.and_eq_true, Params.widthLegal_iff, Params.maxCountLegal_iff,
    TypeCodes.injective_iff, and_assoc]

end Sys2Proof

namespace Sys2Proof.Machine

theorem State.instantiate_eq_none_iff (p : Params) : State.instantiate p = none ↔ ¬ p.wellFormed = true := by
  simp [State.instantiate]

/-- Settles O24: the conditions of R5, R7 and R8 negated, one disjunct for each. -/
theorem illegalParametersHaveNoBlock : Obligations.IllegalParametersHaveNoBlock := by
  intro p
  have hwidth : ¬ (1 ≤ p.W ∧ p.W ≤ 64) ↔ p.W = 0 ∨ 64 < p.W := by omega
  have hmax : ¬ (399 ≤ p.maxCount ∧ p.maxCount < 2 ^ 64) ↔ p.maxCount < 399 ∨ 2 ^ 64 ≤ p.maxCount := by omega
  have hcodes : ¬ Function.Injective p.typeCodes.code ↔
      ∃ l l', l ≠ l' ∧ p.typeCodes.code l = p.typeCodes.code l' := by
    simp only [Function.not_injective_iff, and_comm]
  rw [State.instantiate_eq_none_iff, Params.wellFormed_iff, not_and_or, hwidth, not_and_or, hmax, hcodes]

/-! ### The parameters along a step -/

/-- Both ends of a command, the append and the plain answer, keep the parameters. -/
theorem exec_params {i : Instr} {s t : State} (h : exec i s = .next t) : t.params = s.params := by
  rcases exec_cases h with ⟨v, -, -, rfl⟩ | ⟨st, r, rfl, -⟩
  · rw [State.respond_params, State.appendElem_params]
  · rw [State.answer_params]

theorem State.acceptNext_params (arbiter : Nat → Nat) (s : State) : (s.acceptNext arbiter).params = s.params := by
  rcases acceptNext_cases arbiter s with ⟨hwait, -⟩ | ⟨_, _, _, _, -, -, htake⟩
  · rw [hwait]
  · rw [htake]

/-- Every step keeps the parameters, whatever the arbiter between the hosts. -/
theorem stepWith_params {arbiter : Nat → Nat} {s t : State} (h : stepWith arbiter s = .next t) :
    t.params = s.params := by
  rcases stepWith_cases h with ⟨-, rfl⟩ | ⟨-, req, -, ⟨i, -, hexec⟩ | ⟨e, -, rfl⟩⟩ | ⟨-, -, r, -, rfl⟩ |
    ⟨-, -, -, rfl⟩
  case inl => exact State.blockReset_params s
  case inr.inl.inl => exact exec_params hexec
  case inr.inl.inr => exact State.raise_params s .illegalCommand
  case inr.inr.inl => exact State.deliver_params s r
  case inr.inr.inr => exact State.acceptNext_params arbiter s

/-- Settles O19: the free arbiter is one of the arbiters. -/
theorem parametersNeverChange : Obligations.ParametersNeverChange :=
  fun _ _ h => stepWith_params h

end Sys2Proof.Machine
end

section
/-! PROOFS. The state of the block (10_state.md): what reset leaves (R35), the invariant of R23, R24, R26 and R60 at
reset and along every step, who writes COUNT and BUF (R27), the range of an element (R25), and where the bytes of an
element exist (R31). -/

namespace Sys2Proof

/-! ### The open parameters are legal -/

@[simp] theorem TypeCodes.ofFun_code (f : ManeuverType → TypeField) (l : ManeuverType) :
    (TypeCodes.ofFun f).code l = f l := by
  cases l <;> rfl

/-- The fixed numbering of the sixteen names by 5-bit codes gives different names different codes. -/
theorem ManeuverType.number_injective :
    Function.Injective fun l : ManeuverType => BitVec.ofNat 5 (ManeuverType.all.idxOf l) := by
  intro l l' h
  have hlt (l : ManeuverType) : ManeuverType.all.idxOf l < 2 ^ 5 :=
    (List.idxOf_lt_length_of_mem l.mem_all).trans (by decide)
  have hnat := congrArg BitVec.toNat h
  simp only [BitVec.toNat_ofNat, Nat.mod_eq_of_lt (hlt _)] at hnat
  exact (List.idxOf_inj l.mem_all).1 hnat

theorem Config.params_W : Config.params.W = Config.widthLessOne.val + 1 := by
  have := Config.widthLessOne.isLt
  simp only [Params.W, Config.params, BitVec.toNat_ofNat]
  omega

/-- Whatever the open constants are, the machine's own instantiation is one of a block that exists. -/
theorem Config.params_wellFormed : Config.params.wellFormed = true := by
  refine (Params.wellFormed_iff _).2 ⟨?width, ?maxCount, ?typeCodes⟩
  case width =>
    have := Config.widthLessOne.isLt
    rw [Config.params_W]
    omega
  case maxCount =>
    exact ⟨le_max_left _ _, max_lt (by decide) Config.maxCountFree.isLt⟩
  case typeCodes =>
    intro l l' h
    simp only [Config.params, TypeCodes.ofFun_code, EmbeddingLike.apply_eq_iff_eq] at h
    exact ManeuverType.number_injective h

end Sys2Proof

namespace Sys2Proof.Machine

/-! ### How a command ends -/

theorem Status.code_toNat_le (st : Status) : st.code.toNat ≤ 4 := by cases st <;> decide

/-- Every response a command gives is legal: RESULT is 0 unless the answer is OK (R183). -/
theorem Response.legal_of_answer {st : Status} {r : DataWord} (h : st = .ok ∨ r = 0) :
    Response.Legal ⟨st.code, r⟩ := by
  refine ⟨st.code_toNat_le, fun hne => ?_⟩
  rcases h with rfl | hr
  · exact absurd rfl hne
  · exact hr

theorem State.answer_sameSeq (s : State) (st : Status) (r : DataWord) : s.SameSeq (s.answer st r) := ⟨rfl, rfl, rfl⟩

theorem State.answer_sameButPort (s : State) (st : Status) (r : DataWord) : SameButPort s (s.answer st r) :=
  ⟨rfl, rfl, rfl, rfl, rfl, rfl, rfl⟩

theorem completesWith_of_respond {i : Instr} {s : State} {r : DataWord} (h : exec i s = .next (s.respond r)) :
    CompletesWith i s r :=
  ⟨_, h, ⟨rfl, rfl⟩, s.answer_sameButPort .ok r⟩

theorem failsWith_of_raise {i : Instr} {s : State} {e : Status} (h : exec i s = .next (s.raise e)) :
    FailsWith i s e.code :=
  ⟨_, h, ⟨rfl, rfl⟩, s.answer_sameButPort e 0⟩

/-! ### The checks of the SEQ commands -/

theorem State.insertStatus_eq_ok_iff {s : State} {v : DataWord} :
    s.insertStatus v = .ok ↔ v.toNat < 2 ^ s.W ∧ s.count ≠ s.params.maxCount := by
  unfold State.insertStatus
  split
  case isTrue hwide => simp [Nat.not_lt.2 hwide]
  case isFalse hfits =>
    split
    case isTrue hfull => simp [hfull]
    case isFalse hroom => simp [Nat.not_le.1 hfits, hroom]

theorem State.retrieveStatus_of_lt {s : State} {idx : DataWord} (h : idx.toNat < s.count) :
    s.retrieveStatus idx = .ok :=
  if_neg (Nat.not_le.2 h)

theorem State.byteReadStatus_of_le {s : State} {j : DataWord} (h : s.buf.len ≤ j.toNat) :
    s.byteReadStatus j = .rangeError :=
  if_pos h

theorem zext64Nat_of_lt {n : Nat} (h : n < 2 ^ 64) : zext64Nat n = BitVec.ofNat 64 n := if_pos h

@[simp] theorem zext64Nat_zero : zext64Nat 0 = 0 := zext64Nat_of_lt (by decide)

theorem zext64_params_width (p : Params) : zext64 p.width = BitVec.ofNat 64 p.W :=
  (BitVec.ofNat_toNat 64 p.width).symm

theorem exec_seqSize (s : State) : exec .seqSize s = .next (s.respond (zext64Nat s.count)) := rfl

theorem exec_seqByteLen (s : State) : exec .seqByteLen s = .next (s.respond (zext64Nat s.buf.len)) := rfl

theorem exec_seqWidth (s : State) : exec .seqWidth s = .next (s.respond (zext64 s.params.width)) := rfl

/-- SEQ_BYTE_READ at or beyond the end of BUF (R108). -/
theorem exec_seqByteRead_of_le {s : State} {j : DataWord} (h : s.buf.len ≤ j.toNat) :
    exec (.seqByteRead j) s = .next (s.raise .rangeError) := by
  simp [exec, execSeqByteRead, State.byteReadStatus_of_le h]

/-- SEQ_RETRIEVE below COUNT (R103): the element, or the stop where one of its bytes does not exist. -/
theorem exec_seqRetrieve_of_lt {s : State} {idx : DataWord} (h : idx.toNat < s.count) :
    exec (.seqRetrieve idx) s =
      if s.elemPresent idx.toNat then .next (s.respond (s.elem idx.toNat)) else .fault .absentByte :=
  if_pos (State.retrieveStatus_of_lt h)

theorem State.elemPresent_iff {s : State} {i : Nat} : s.elemPresent i = true ↔ (i + 1) * s.W ≤ 8 * s.buf.len :=
  decide_eq_true_iff

/-! ### What reset leaves -/

/-- Settles O14: COUNT and the length of BUF are 0, so each answer is the equation of its command at 0. -/
theorem resetValues : Obligations.ResetValues := by
  refine ⟨rfl, rfl, fun p => ⟨rfl, rfl, rfl, rfl, rfl, ?size, ?byteLen, ?width, fun j => ?byteRead⟩⟩
  case size =>
    exact completesWith_of_respond <| by
      rw [exec_seqSize, State.resetOf_count, zext64Nat_zero]
  case byteLen =>
    exact completesWith_of_respond <| by
      rw [exec_seqByteLen, State.resetOf_buf, Memory.empty_len, zext64Nat_zero]
  case width =>
    exact completesWith_of_respond <| by
      rw [exec_seqWidth, State.resetOf_params, zext64_params_width]
  case byteRead =>
    exact failsWith_of_raise (e := .rangeError) (exec_seqByteRead_of_le (Nat.zero_le _))

/-! ### The invariant after reset -/

/-- A block with no elements and nothing at its port meets the invariant, whatever legal responses its hosts have
received: the states that both resets leave. -/
theorem State.Inv.of_empty {s : State} (hp : s.params.wellFormed = true) (hcount : s.count = 0)
    (hbuf : s.buf = Memory.empty) (hreq : s.request = none) (hresp : s.response = none)
    (hrec : ∀ a ∈ s.agents, ∀ r ∈ a.received, r.Legal) : s.Inv where
  paramsLegal := hp
  bufCanonical := by rw [hbuf, Memory.empty_wf]
  countBound := by simp [hcount]
  lengthExact := by simp [hcount, hbuf, ceilDiv]
  paddingZero := by simp [hbuf]
  portExclusive := fun h => absurd hreq h
  responseLegal := by simp [hresp]
  receivedLegal := hrec

theorem State.resetOf_inv {p : Params} (hp : p.wellFormed = true) : (State.resetOf p).Inv :=
  .of_empty hp rfl rfl rfl rfl fun _ ha => nomatch ha

/-- Settles O15: the open parameters are legal whatever they are. -/
theorem resetMeetsTheInvariant : Obligations.ResetMeetsTheInvariant :=
  ⟨fun _ => State.resetOf_inv, State.resetOf_inv Config.params_wellFormed⟩

/-! ### What the invariant says of BUF -/

/-- Every byte of every element held exists (R24, R40). -/
theorem State.Inv.elemPresent {s : State} (hs : s.Inv) {i : Nat} (hi : i < s.count) : s.elemPresent i = true := by
  rw [State.elemPresent_iff]
  calc (i + 1) * s.W ≤ s.count * s.W := Nat.mul_le_mul_right _ hi
    _ ≤ 8 * ceilDiv (s.count * s.W) 8 := le_ceilDiv _
    _ = 8 * s.buf.len := by rw [hs.lengthExact]

/-- No bit past the last element is set: within BUF that is padding (R26), beyond it there is no byte. -/
theorem State.Inv.bit_of_le {s : State} (hs : s.Inv) {b : Nat} (hb : s.count * s.W ≤ b) : s.bit b = false := by
  rcases Nat.lt_or_ge b (8 * s.buf.len) with hin | hout
  · exact hs.paddingZero b hin hb
  · exact Memory.getBit_of_le hs.bufCanonical _ hout

theorem ceilDiv_mono {a a' : Nat} (h : a ≤ a') : ceilDiv a 8 ≤ ceilDiv a' 8 :=
  (ceilDiv_le_iff _ _).2 (h.trans (le_ceilDiv a'))

/-! ### What an insert does to the bits of BUF -/

/-- A SEQ_INSERT writes the bits of the new element and no other (R101). -/
theorem State.appendElem_bit {s : State} (hwf : s.buf.wf = true) (v : DataWord) (b : Nat) :
    (s.appendElem v).bit b =
      if s.count * s.W ≤ b ∧ b < s.count * s.W + s.W then valueBit s.params.bitOrder s.W v (b - s.count * s.W)
      else s.bit b :=
  Memory.getBit_appendElem hwf _ _ _ _ _

/-! ### Each part of a step keeps the invariant -/

section Keeps

variable {s t : State}

/-- A step that leaves the SEQ unit alone keeps the invariant if the port and the hosts stay legal. -/
theorem State.Inv.of_sameSeq (hs : s.Inv) (hseq : s.SameSeq t) (hport : t.request ≠ none → t.response = none)
    (hresp : ∀ r, t.response = some r → r.Legal) (hrec : ∀ a ∈ t.agents, ∀ r ∈ a.received, r.Legal) : t.Inv := by
  have hW := hseq.W
  obtain ⟨hp, hc, hb⟩ := hseq
  exact {
    paramsLegal := hp ▸ hs.paramsLegal
    bufCanonical := hb ▸ hs.bufCanonical
    countBound := by rw [hp, hc]; exact hs.countBound
    lengthExact := by rw [hb, hc, hW]; exact hs.lengthExact
    paddingZero := fun b _ hle => by
      rw [State.bit, hb, hp]
      exact hs.bit_of_le (by rwa [hc, hW] at hle)
    portExclusive := hport
    responseLegal := hresp
    receivedLegal := hrec }

theorem State.Inv.answer (hs : s.Inv) {st : Status} {r : DataWord} (h : st = .ok ∨ r = 0) : (s.answer st r).Inv :=
  hs.of_sameSeq (s.answer_sameSeq st r) (fun hne => absurd rfl hne)
    (fun r' hr' => by cases hr'; exact Response.legal_of_answer h) hs.receivedLegal

/-- A successful insert: COUNT was below MAX_COUNT, BUF grows to exactly the bytes the elements need, and what it
does not write past the old elements was zero before. -/
theorem State.Inv.appendElem (hs : s.Inv) {v : DataWord} (hv : s.insertStatus v = .ok) : (s.appendElem v).Inv where
  paramsLegal := hs.paramsLegal
  bufCanonical := Memory.appendElem_wf hs.bufCanonical _ _ _ _
  countBound := by
    have hroom := (State.insertStatus_eq_ok_iff.1 hv).2
    have hbound := hs.countBound
    rw [State.appendElem_count, State.appendElem_params]
    omega
  lengthExact := by
    rw [State.appendElem_buf, Memory.appendElem_len, hs.lengthExact, State.appendElem_count, State.appendElem_W]
    exact max_eq_right (ceilDiv_mono (Nat.mul_le_mul_right _ (Nat.le_succ _)))
  paddingZero := by
    intro b _ hb
    rw [State.appendElem_count, State.appendElem_W, Nat.succ_mul] at hb
    rw [State.appendElem_bit hs.bufCanonical, if_neg (by omega)]
    exact hs.bit_of_le (by omega)
  portExclusive := hs.portExclusive
  responseLegal := hs.responseLegal
  receivedLegal := hs.receivedLegal

theorem exec_inv {i : Instr} (hs : s.Inv) (h : exec i s = .next t) : t.Inv := by
  rcases exec_cases h with ⟨v, -, hv, rfl⟩ | ⟨st, r, rfl, hr⟩
  · exact (hs.appendElem hv).answer (.inl rfl)
  · exact hs.answer hr

theorem State.Inv.blockReset (hs : s.Inv) : s.blockReset.Inv :=
  .of_empty hs.paramsLegal rfl rfl rfl rfl hs.receivedLegal

/-- A host that receives a pending response has received legal ones only. -/
theorem State.deliver_receivedLegal (hrec : ∀ a ∈ s.agents, ∀ r ∈ a.received, r.Legal) {r : Response}
    (hr : r.Legal) : ∀ a ∈ (s.deliver r).agents, ∀ r' ∈ a.received, r'.Legal := by
  intro a ha r' hr'
  simp only [State.deliver] at ha
  split at ha
  case h_2 => exact hrec a ha r' hr'
  case h_1 =>
    obtain ⟨k, hk⟩ := List.mem_iff_getElem?.1 ha
    rw [List.getElem?_modify] at hk
    obtain ⟨b, hb, hab⟩ := Option.map_eq_some_iff.1 hk
    have hbrec := hrec b (List.mem_of_getElem? hb)
    split at hab <;> subst hab
    case isTrue =>
      rcases List.mem_append.1 hr' with hold | hnew
      · exact hbrec r' hold
      · rwa [List.mem_singleton.1 hnew]
    case isFalse => exact hbrec r' hr'

theorem State.Inv.deliver (hs : s.Inv) {r : Response} (hr : s.response = some r) : (s.deliver r).Inv :=
  hs.of_sameSeq ⟨rfl, rfl, rfl⟩ (fun _ => rfl) (fun _ h => nomatch h)
    (State.deliver_receivedLegal hs.receivedLegal (hs.responseLegal r hr))

/-- The port takes a request only where no response is pending, and no host has received anything by it. -/
theorem State.Inv.acceptNext (hs : s.Inv) (hresp : s.response = none) (arbiter : Nat → Nat) :
    (s.acceptNext arbiter).Inv := by
  rcases acceptNext_cases arbiter s with ⟨hwait, -⟩ | ⟨h, x, rest, received, hh, -, htake⟩
  · rwa [hwait]
  · rw [htake]
    refine hs.of_sameSeq ⟨rfl, rfl, rfl⟩ (fun _ => hresp) hs.responseLegal fun a ha r hr => ?_
    rcases List.mem_or_eq_of_mem_set ha with hold | rfl
    · exact hs.receivedLegal a hold r hr
    · exact hs.receivedLegal _ (List.mem_of_getElem? hh) r hr

/-- Every step keeps the invariant, whatever the arbiter between the hosts. -/
theorem stepWith_inv {arbiter : Nat → Nat} (hs : s.Inv) (h : stepWith arbiter s = .next t) : t.Inv := by
  rcases stepWith_cases h with ⟨-, rfl⟩ | ⟨-, req, -, ⟨i, -, hexec⟩ | ⟨e, -, rfl⟩⟩ | ⟨-, -, r, hr, rfl⟩ |
    ⟨-, -, hresp, rfl⟩
  case inl => exact hs.blockReset
  case inr.inl.inl => exact exec_inv hs hexec
  case inr.inl.inr => exact hs.answer (.inr rfl)
  case inr.inr.inl => exact hs.deliver hr
  case inr.inr.inr => exact hs.acceptNext hresp arbiter

end Keeps

/-- Settles O16: the free arbiter is one of the arbiters. -/
theorem stepKeepsTheInvariant : Obligations.StepKeepsTheInvariant :=
  fun _ _ hs h => stepWith_inv hs h

/-! ### Who writes COUNT and BUF -/

theorem State.acceptNext_sameSeq (arbiter : Nat → Nat) (s : State) : s.SameSeq (s.acceptNext arbiter) := by
  rcases acceptNext_cases arbiter s with ⟨hwait, -⟩ | ⟨_, _, _, _, -, -, htake⟩
  · rw [hwait]
    exact .rfl
  · rw [htake]
    exact ⟨rfl, rfl, rfl⟩

/-- Settles O18: of all that a step can do, only the block's reset and an insert touch COUNT or BUF. -/
theorem onlyInsertGrowsTheSequence : Obligations.OnlyInsertGrowsTheSequence := by
  intro s t hwf h
  rcases stepWith_cases h with ⟨hreset, rfl⟩ | ⟨hreset, req, hreq, ⟨i, hi, hexec⟩ | ⟨e, -, rfl⟩⟩ |
    ⟨-, -, r, -, rfl⟩ | ⟨-, -, -, rfl⟩
  case inl => exact .inr (.inl ⟨hreset, rfl, rfl⟩)
  case inr.inl.inl =>
    rcases exec_cases hexec with ⟨v, rfl, -, rfl⟩ | ⟨st, r, rfl, -⟩
    · refine .inr (.inr ⟨hreset, req, v, hreq, hi, rfl, ?grows, fun b hb => ?keeps⟩)
      case grows =>
        rw [State.respond_buf, State.appendElem_buf, Memory.appendElem_len]
        exact le_max_left _ _
      case keeps =>
        exact (State.appendElem_bit hwf v b).trans (if_neg fun hin => Nat.not_le.2 hb hin.1)
    · exact .inl ⟨rfl, rfl⟩
  case inr.inl.inr => exact .inl ⟨rfl, rfl⟩
  case inr.inr.inl => exact .inl ⟨rfl, rfl⟩
  case inr.inr.inr => exact .inl (State.acceptNext_sameSeq _ s).2

/-! ### Elements -/

/-- Settles O29: below COUNT the stop is exactly an element whose bytes do not all exist, and under the invariant
they do. -/
theorem seqRetrieveStopsWhereNoByteExists : Obligations.SeqRetrieveStopsWhereNoByteExists := by
  intro s idx hidx
  rw [exec_seqRetrieve_of_lt hidx]
  refine ⟨?stops, fun hs => ⟨_, if_pos (hs.elemPresent hidx)⟩⟩
  case stops =>
    rw [← Nat.not_le, ← State.elemPresent_iff]
    by_cases hpresent : s.elemPresent idx.toNat = true <;> simp [hpresent]

/-- All that an element of the machine is (R44): bit q of the value is the bit of BUF at its offset, and no bit at or
above W is set. -/
theorem State.elem_getLsbD {s : State} (hW : s.W ≤ 64) (i q : Nat) :
    (s.elem i).getLsbD q =
      (decide (q < s.W) && s.bit (i * s.W + valuePos s.params.bitOrder s.W q)) :=
  Memory.elem_getLsbD _ _ hW _ _

/-- Settles O35: an element is read from W bits, so no bit at or above W is set in it. -/
theorem elementsFitTheirWidth : Obligations.ElementsFitTheirWidth := by
  intro s i hW
  refine Nat.lt_pow_two_of_testBit _ fun q hq => ?_
  have hbit : (s.elem i).getLsbD q = false := by
    rw [State.elem_getLsbD hW, decide_eq_false (Nat.not_lt.2 hq), Bool.false_and]
  exact hbit

end Sys2Proof.Machine
end

section
/-! PROOFS. Memory layout, access and ordering (20_memory.md): the bytes an element spans (R46), the byte-level read and
write (R47, R48), idempotence (R53), which bytes an insert writes (R51), the payload (R59), and the order of acceptance
between hosts (R56).

The span of an element is treated as one element of `8 * n` bits: the integer the byte-level forms gather has its bits
where `valuePos` puts those of such an element, and the element itself stands at `elemShift` in it, under both bit
orders. -/

namespace Sys2Proof.Machine

/-! ### Bits and bytes of BUF -/

/-- Equal lengths and equal bits: the same memory. -/
theorem Memory.eq_of_getBit {m m' : Memory} (o : BitOrder) (h : m.wf = true) (h' : m'.wf = true)
    (hl : m.len = m'.len) (hb : ∀ b, m.getBit o b = m'.getBit o b) : m = m' :=
  Memory.eq_of_read h h' hl fun _ => Memory.read_eq_of_getBit o fun b _ => hb b

theorem valueBit_eq_getLsbD (o : BitOrder) (w : Nat) (v : DataWord) (k : Nat) :
    valueBit o w v k = v.getLsbD (valuePos o w k) := by
  cases o <;> rfl

theorem valuePos_lt {w k : Nat} (o : BitOrder) (hk : k < w) : valuePos o w k < w := by
  cases o with
  | lsbFirst => exact hk
  | msbFirst => simp only [valuePos]; omega

/-- Where offsets go in a value and where value bits go among the offsets is one map (R43, R44). -/
theorem valuePos_valuePos {w k : Nat} (o : BitOrder) (hk : k < w) : valuePos o w (valuePos o w k) = k := by
  cases o with
  | lsbFirst => rfl
  | msbFirst => simp only [valuePos]; omega

/-- Every bit of BUF below `count * w` is the bit of an element (R40, R44). -/
theorem Memory.getBit_eq_elem_getLsbD (m : Memory) (o : BitOrder) {w b : Nat} (hw0 : 0 < w) (hw : w ≤ 64) :
    m.getBit o b = (m.elem o w (b / w)).getLsbD (valuePos o w (b % w)) := by
  have hk : b % w < w := Nat.mod_lt b hw0
  rw [Memory.elem_getLsbD m o hw, valuePos_valuePos o hk, Nat.div_add_mod' b w, decide_eq_true (valuePos_lt o hk),
    Bool.true_and]

/-! ### The span of an element (R46) -/

/-- The first offset of an element, in the byte where its span starts. -/
theorem spanStart_add_spanShift (w i : Nat) : 8 * spanStart w i + spanShift w i = i * w :=
  Nat.div_add_mod (i * w) 8

theorem spanShift_lt (w i : Nat) : spanShift w i < 8 := Nat.mod_lt _ (by decide)

theorem le_spanLength (w i : Nat) : spanShift w i + w ≤ 8 * spanLength w i := le_ceilDiv _

theorem spanLength_le_iff (w i n : Nat) : spanLength w i ≤ n ↔ spanShift w i + w ≤ 8 * n := ceilDiv_le_iff _ n

/-- Where every bit of an element exists, so does every byte of its span. -/
theorem spanEnd_le {w i len : Nat} (h : (i + 1) * w ≤ 8 * len) : spanStart w i + spanLength w i ≤ len := by
  have hstart := spanStart_add_spanShift w i
  have hlen := spanLength_le_iff w i (len - spanStart w i)
  rw [Nat.succ_mul] at h
  omega

/-- A byte is in the span exactly when it holds one of the element's bits: its first one is the byte's own first bit, or
the element's first where the byte starts before it. -/
theorem mem_span_iff {w i j : Nat} (hw : 1 ≤ w) :
    (spanStart w i ≤ j ∧ j < spanStart w i + spanLength w i) ↔ ∃ k < w, (i * w + k) / 8 = j := by
  have hstart := spanStart_add_spanShift w i
  have hshift := spanShift_lt w i
  have hlen := spanLength_le_iff w i (j - spanStart w i)
  constructor
  · rintro ⟨hge, hlt⟩
    exact ⟨8 * j - i * w, by omega, by omega⟩
  · rintro ⟨k, hk, rfl⟩
    omega

/-- Settles O42: the bounds are those of `spanShift w i + w`, from 1 to 71. -/
theorem elementSpan : Obligations.ElementSpan := by
  refine ⟨fun w i hw1 hw64 => ?_, by decide, by decide, by decide⟩
  have hshift := spanShift_lt w i
  have hle0 := spanLength_le_iff w i 0
  have hle9 := spanLength_le_iff w i 9
  have hle8 := spanLength_le_iff w i 8
  exact ⟨by omega, by omega, by omega, fun j => mem_span_iff hw1⟩

/-! ### The field of the spanned bytes (R47, R48) -/

/-- The integer gathered from `n` bytes under either bit order. -/
def Memory.gather (m : Memory) (o : BitOrder) (j0 n : Nat) : Nat :=
  match o with
  | .lsbFirst => m.gatherLsb j0 n
  | .msbFirst => m.gatherMsb j0 n n

/-- Where the element's lowest value bit stands in the field of its spanned bytes. -/
def elemShift (o : BitOrder) (w i : Nat) : Nat :=
  match o with
  | .lsbFirst => spanShift w i
  | .msbFirst => 8 * spanLength w i - spanShift w i - w

theorem Memory.elemByBytes_eq (m : Memory) (o : BitOrder) (w i : Nat) :
    m.elemByBytes o w i =
      (m.gather o (spanStart w i) (spanLength w i) >>> elemShift o w i) &&& (2 ^ w - 1) := by
  cases o <;> rfl

theorem elemField_eq (o : BitOrder) (w i : Nat) (v : DataWord) : elemField o w i v = v.toNat <<< elemShift o w i := by
  cases o <;> rfl

/-- Bit q of the element is bit `elemShift + q` of the field: both stand at one offset of BUF. -/
theorem valuePos_elemShift_add {w q : Nat} (o : BitOrder) (i : Nat) (hq : q < w) :
    elemShift o w i + q < 8 * spanLength w i ∧
      8 * spanStart w i + valuePos o (8 * spanLength w i) (elemShift o w i + q) = i * w + valuePos o w q := by
  have hstart := spanStart_add_spanShift w i
  have hlen := le_spanLength w i
  cases o <;> simp only [elemShift, valuePos] <;> omega

/-- Bit p of a byte shifted left by whole bytes. -/
theorem testBit_byte_shiftLeft (y : Byte) (t p : Nat) :
    (y.toNat <<< (8 * t)).testBit p = (decide (p / 8 = t) && y.getLsbD (p % 8)) := by
  rw [Nat.testBit_shiftLeft]
  by_cases ht : p / 8 = t
  · have hp : p - 8 * t = p % 8 := by omega
    rw [decide_eq_true ht, decide_eq_true (by omega), hp]
    rfl
  · rw [decide_eq_false ht, Bool.false_and]
    by_cases hp : 8 * t ≤ p
    · rw [show y.toNat.testBit (p - 8 * t) = y.getLsbD (p - 8 * t) from rfl,
        BitVec.getLsbD_of_ge y _ (by omega), Bool.and_false]
    · rw [decide_eq_false hp, Bool.false_and]

theorem Memory.gatherLsb_testBit (m : Memory) (j0 t p : Nat) :
    (m.gatherLsb j0 t).testBit p = (decide (p < 8 * t) && (m.read (j0 + p / 8)).getLsbD (p % 8)) := by
  induction t with
  | zero => simp [Memory.gatherLsb]
  | succ t ih =>
    rw [Memory.gatherLsb, Nat.testBit_or, ih, testBit_byte_shiftLeft]
    by_cases ht : p / 8 = t
    · rw [decide_eq_true ht, decide_eq_false (by omega), decide_eq_true (by omega), ht, Bool.false_and, Bool.false_or]
    · have hbound : p < 8 * t ↔ p < 8 * (t + 1) := by omega
      rw [decide_eq_false ht, Bool.false_and, Bool.or_false, decide_eq_decide.2 hbound]

theorem Memory.gatherMsb_testBit (m : Memory) (j0 n : Nat) {t : Nat} (ht : t ≤ n) (p : Nat) :
    (m.gatherMsb j0 n t).testBit p =
      (decide (8 * (n - t) ≤ p ∧ p < 8 * n) && (m.read (j0 + (n - 1 - p / 8))).getLsbD (p % 8)) := by
  induction t with
  | zero =>
    rw [decide_eq_false (by omega), Bool.false_and]
    exact Nat.zero_testBit p
  | succ t ih =>
    rw [Memory.gatherMsb, Nat.testBit_or, ih (by omega), testBit_byte_shiftLeft]
    by_cases hp : p / 8 = n - 1 - t
    · have hbyte : n - 1 - p / 8 = t := by omega
      rw [decide_eq_false (by omega), decide_eq_true hp, decide_eq_true (by omega), hbyte, Bool.false_and,
        Bool.false_or]
    · have hbound : (8 * (n - t) ≤ p ∧ p < 8 * n) ↔ (8 * (n - (t + 1)) ≤ p ∧ p < 8 * n) := by omega
      rw [decide_eq_false hp, Bool.false_and, Bool.or_false, decide_eq_decide.2 hbound]

/-- The gathered field is the value of one element of `8 * n` bits at the start of the span. -/
theorem Memory.gather_testBit (m : Memory) (o : BitOrder) (j0 : Nat) {n p : Nat} (hp : p < 8 * n) :
    (m.gather o j0 n).testBit p = m.getBit o (8 * j0 + valuePos o (8 * n) p) := by
  cases o with
  | lsbFirst =>
    have hbyte : (8 * j0 + p) / 8 = j0 + p / 8 := by omega
    have hpos : (8 * j0 + p) % 8 = p % 8 := by omega
    simp only [Memory.gather, Memory.gatherLsb_testBit, hp, decide_true, Bool.true_and, valuePos, Memory.getBit,
      physBit, hbyte, hpos]
  | msbFirst =>
    have hbyte : (8 * j0 + (8 * n - 1 - p)) / 8 = j0 + (n - 1 - p / 8) := by omega
    have hpos : 7 - (8 * j0 + (8 * n - 1 - p)) % 8 = p % 8 := by omega
    simp only [Memory.gather, Memory.gatherMsb_testBit m j0 n le_rfl, Nat.sub_self, Nat.mul_zero, Nat.zero_le, hp,
      and_self, decide_true, Bool.true_and, valuePos, Memory.getBit, physBit, hbyte, hpos]

/-- Settles O43: bit q of the shifted field and of the element is the same bit of BUF, and the mask keeps the bits
below W. -/
theorem byteLevelReadIsElem : Obligations.ByteLevelReadIsElem := by
  intro m o w i _ hw64
  refine Nat.eq_of_testBit_eq fun q => ?_
  have helem : (m.elem o w i).toNat.testBit q = (decide (q < w) && m.getBit o (i * w + valuePos o w q)) :=
    Memory.elem_getLsbD m o hw64 i q
  rw [helem, Memory.elemByBytes_eq, Nat.testBit_and, Nat.testBit_two_pow_sub_one, Nat.testBit_shiftRight, Bool.and_comm]
  by_cases hq : q < w
  · obtain ⟨hfield, hoffset⟩ := valuePos_elemShift_add o i hq
    rw [Memory.gather_testBit m o _ hfield, hoffset]
  · rw [decide_eq_false hq, Bool.false_and, Bool.false_and]

/-! ### The byte-level write (R47, R48) -/

@[simp] theorem Memory.orField_len (m : Memory) (o : BitOrder) (j0 n field t : Nat) :
    (m.orField o j0 n field t).len = m.len := by
  induction t with
  | zero => rfl
  | succ t ih => simp [Memory.orField, ih]

theorem Memory.orField_wf {m : Memory} (h : m.wf = true) (o : BitOrder) (j0 n field t : Nat) :
    (m.orField o j0 n field t).wf = true := by
  induction t with
  | zero => exact h
  | succ t ih => exact Memory.write_wf ih _ _

/-- The bits of a field's byte, by their offset in the span. -/
theorem fieldByte_getLsbD (o : BitOrder) {n t b : Nat} (field j0 : Nat) (ht : t < n) (hb : b / 8 = j0 + t) :
    (fieldByte o n field t).getLsbD (physBit o b).2 = field.testBit (valuePos o (8 * n) (b - 8 * j0)) := by
  have hpos := physBit_pos_lt o b
  cases o with
  | lsbFirst =>
    have hbit : 8 * t + b % 8 = b - 8 * j0 := by omega
    simp only [fieldByte, physBit, valuePos, BitVec.getLsbD_ofNat, Nat.testBit_shiftRight, hbit] at hpos ⊢
    rw [decide_eq_true hpos, Bool.true_and]
  | msbFirst =>
    have hbit : 8 * (n - 1 - t) + (7 - b % 8) = 8 * n - 1 - (b - 8 * j0) := by omega
    simp only [fieldByte, physBit, valuePos, BitVec.getLsbD_ofNat, Nat.testBit_shiftRight, hbit] at hpos ⊢
    rw [decide_eq_true hpos, Bool.true_and]

/-- What one byte's OR does to the bits of BUF. -/
theorem Memory.getBit_write_or {m : Memory} (h : m.wf = true) (o : BitOrder) {j : Nat} (hj : j < m.len) (x : Byte)
    (b : Nat) :
    (m.write j (m.read j ||| x)).getBit o b =
      (m.getBit o b || (decide (b / 8 = j) && x.getLsbD (physBit o b).2)) := by
  rw [Memory.getBit, Memory.getBit, Memory.read_write h hj, physBit_byte]
  by_cases hb : b / 8 = j
  · rw [if_pos hb, hb, BitVec.getLsbD_or, decide_eq_true rfl, Bool.true_and]
  · rw [if_neg hb, decide_eq_false hb, Bool.false_and, Bool.or_false]

/-- All that the byte-level write's loop does to the bits of BUF: the field's bits are ORed in where an element of
`8 * n` bits at the start of the span has them. -/
theorem Memory.getBit_orField {m : Memory} (h : m.wf = true) (o : BitOrder) {j0 n t : Nat} (field : Nat)
    (ht : t ≤ n) (hlen : j0 + t ≤ m.len) (b : Nat) :
    (m.orField o j0 n field t).getBit o b =
      (m.getBit o b ||
        (decide (8 * j0 ≤ b ∧ b < 8 * (j0 + t)) && field.testBit (valuePos o (8 * n) (b - 8 * j0)))) := by
  induction t with
  | zero =>
    rw [decide_eq_false (by omega), Bool.false_and, Bool.or_false]
    rfl
  | succ t ih =>
    have hj : j0 + t < (m.orField o j0 n field t).len := by
      rw [Memory.orField_len]
      omega
    rw [Memory.orField, Memory.getBit_write_or (Memory.orField_wf h o j0 n field t) o hj, ih (by omega) (by omega)]
    by_cases hb : b / 8 = j0 + t
    · rw [decide_eq_true hb, fieldByte_getLsbD o field j0 ht hb, decide_eq_false (by omega),
        decide_eq_true (show 8 * j0 ≤ b ∧ b < 8 * (j0 + (t + 1)) by omega), Bool.false_and, Bool.or_false]
    · have hbound : (8 * j0 ≤ b ∧ b < 8 * (j0 + t)) ↔ (8 * j0 ≤ b ∧ b < 8 * (j0 + (t + 1))) := by omega
      rw [decide_eq_false hb, Bool.false_and, Bool.or_false, decide_eq_decide.2 hbound]

/-- The field holds the value at the element's own offsets and zeros at the others of the span. -/
theorem elemField_testBit (o : BitOrder) {w i b : Nat} {v : DataWord} (hv : v.toNat < 2 ^ w)
    (hb : 8 * spanStart w i ≤ b ∧ b < 8 * (spanStart w i + spanLength w i)) :
    (elemField o w i v).testBit (valuePos o (8 * spanLength w i) (b - 8 * spanStart w i)) =
      (decide (i * w ≤ b ∧ b < i * w + w) && valueBit o w v (b - i * w)) := by
  have hstart := spanStart_add_spanShift w i
  have hlen := le_spanLength w i
  rw [elemField_eq, Nat.testBit_shiftLeft, valueBit_eq_getLsbD]
  by_cases hin : i * w ≤ b ∧ b < i * w + w
  · have hpos : elemShift o w i ≤ valuePos o (8 * spanLength w i) (b - 8 * spanStart w i) ∧
        valuePos o (8 * spanLength w i) (b - 8 * spanStart w i) - elemShift o w i = valuePos o w (b - i * w) := by
      cases o <;> simp only [elemShift, valuePos] <;> omega
    rw [decide_eq_true hin, decide_eq_true hpos.1, hpos.2]
    rfl
  · rw [decide_eq_false hin, Bool.false_and, Bool.and_eq_false_imp]
    intro hge
    have hout : w ≤ valuePos o (8 * spanLength w i) (b - 8 * spanStart w i) - elemShift o w i := by
      have hge := of_decide_eq_true hge
      cases o <;> simp only [elemShift, valuePos] at hge ⊢ <;> omega
    exact Nat.testBit_lt_two_pow (hv.trans_le (Nat.pow_le_pow_right (by decide) hout))

/-- All that the byte-level write does to the bits of BUF. -/
theorem Memory.getBit_writeByBytes {m : Memory} (h : m.wf = true) (o : BitOrder) {w i : Nat} {v : DataWord}
    (hv : v.toNat < 2 ^ w) (hlen : (i + 1) * w ≤ 8 * m.len) (b : Nat) :
    (m.writeByBytes o w i v).getBit o b =
      (m.getBit o b || (decide (i * w ≤ b ∧ b < i * w + w) && valueBit o w v (b - i * w))) := by
  rw [Memory.writeByBytes, Memory.getBit_orField h o _ le_rfl (spanEnd_le hlen)]
  by_cases hb : 8 * spanStart w i ≤ b ∧ b < 8 * (spanStart w i + spanLength w i)
  · rw [decide_eq_true hb, Bool.true_and, elemField_testBit o hv hb]
  · have hstart := spanStart_add_spanShift w i
    have hspan := le_spanLength w i
    rw [decide_eq_false hb, decide_eq_false (by omega), Bool.false_and, Bool.false_and]

/-- Settles O44: both writes give every bit of BUF alike, the element's own because the OR meets zeros there. -/
theorem byteLevelWriteIsBitLevelWrite : Obligations.ByteLevelWriteIsBitLevelWrite := by
  intro m o w i v _ _ hwf hv hlen hzero
  refine Memory.eq_of_getBit o (Memory.orField_wf hwf _ _ _ _ _) (Memory.writeElem_wf hwf _ _ _ _ _) ?len fun b => ?bit
  case len => rw [Memory.writeByBytes, Memory.orField_len, Memory.writeElem_len]
  case bit =>
    rw [Memory.getBit_writeByBytes hwf o hv hlen, Memory.getBit_writeElem hwf o w i v (by rwa [← Nat.succ_mul])]
    by_cases hin : i * w ≤ b ∧ b < i * w + w
    · rw [if_pos hin, hzero b hin.1 hin.2, decide_eq_true hin, Bool.false_or, Bool.true_and]
    · rw [if_neg hin, decide_eq_false hin, Bool.false_and, Bool.or_false]

/-! ### Idempotence (R53) -/

theorem exec_seqInsert_of_ok {s : State} {v : DataWord} (h : s.insertStatus v = .ok) :
    exec (.seqInsert v) s = .next ((s.appendElem v).respond 0) := by
  simp [exec, execSeqInsert, h]

theorem exec_seqInsert_of_ne_ok {s : State} {v : DataWord} (h : s.insertStatus v ≠ .ok) :
    exec (.seqInsert v) s = .next (s.raise (s.insertStatus v)) := by
  simp [exec, execSeqInsert, h]

/-- All that a SEQ_INSERT can do (R101): append the element and answer OK, or answer its error. -/
theorem exec_seqInsert_cases {v : DataWord} {s t : State} (h : exec (.seqInsert v) s = .next t) :
    (s.insertStatus v = .ok ∧ t = (s.appendElem v).respond 0) ∨
      (s.insertStatus v ≠ .ok ∧ t = s.raise (s.insertStatus v)) := by
  by_cases hv : s.insertStatus v = .ok
  · rw [exec_seqInsert_of_ok hv] at h
    cases h
    exact .inl ⟨hv, rfl⟩
  · rw [exec_seqInsert_of_ne_ok hv] at h
    cases h
    exact .inr ⟨hv, rfl⟩

theorem Status.code_eq_zero_iff (st : Status) : st.code = 0 ↔ st = .ok := by cases st <;> decide

/-- A command that is no SEQ_INSERT only answers. -/
theorem exec_eq_answer {i : Instr} {s t : State} (hi : ∀ v, i ≠ .seqInsert v) (h : exec i s = .next t) :
    ∃ st r, t = s.answer st r := by
  rcases exec_cases h with ⟨v, hv, -, -⟩ | ⟨st, r, ht, -⟩
  · exact absurd hv (hi v)
  · exact ⟨st, r, ht⟩

/-- Done again, a command that is no SEQ_INSERT gives the same next state: the first time left SEQ as it was, on which
alone the answer depends. -/
theorem exec_idempotent {i : Instr} {s t : State} (hi : ∀ v, i ≠ .seqInsert v) (h : exec i s = .next t) :
    exec i t = .next t := by
  obtain ⟨st, r, rfl⟩ := exec_eq_answer hi h
  obtain ⟨t', ht', -, hresp⟩ := exec_congr (s.answer_sameSeq st r) h
  obtain ⟨st', r', rfl⟩ := exec_eq_answer hi ht'
  have hanswer : some (⟨st'.code, r'⟩ : Response) = some ⟨st.code, r⟩ := hresp
  rw [ht', State.answer, hanswer]
  rfl

/-- Settles O23: a command that is no SEQ_INSERT only answers, and an insert that does not append answers an error. -/
theorem readsAreIdempotent : Obligations.ReadsAreIdempotent := by
  refine ⟨fun i s t hi h => ⟨?frame, exec_idempotent hi h⟩, fun v s t h => ?insert⟩
  case frame =>
    obtain ⟨st, r, rfl⟩ := exec_eq_answer hi h
    exact s.answer_sameButPort st r
  case insert =>
    rintro ⟨r, hr, hok⟩
    rcases exec_seqInsert_cases h with ⟨-, rfl⟩ | ⟨hne, rfl⟩
    · rw [State.respond_count, State.appendElem_count]
    · rw [State.raise_response, Option.some.injEq] at hr
      subst hr
      exact absurd ((Status.code_eq_zero_iff _).1 hok) hne

/-! ### The bytes an insert writes (R51) -/

/-- Appending an element writes no byte but those that hold one of its bits. -/
theorem Memory.read_appendElem_of_disjoint {m : Memory} (h : m.wf = true) (o : BitOrder) {w i j : Nat} (v : DataWord)
    (hj : ∀ k < w, (i * w + k) / 8 ≠ j) : (m.appendElem o w i v).read j = m.read j := by
  refine Memory.read_eq_of_getBit o fun b hb => ?_
  rw [Memory.getBit_appendElem h, if_neg]
  rintro ⟨hge, hlt⟩
  exact hj (b - i * w) (by omega) (by rw [Nat.add_sub_cancel' hge, hb])

/-- Settles O27: a byte before or past the span holds no bit of the new element, and a failing insert writes none. -/
theorem seqInsertWritesOnlyItsSpan : Obligations.SeqInsertWritesOnlyItsSpan := by
  intro s t v hwf h j hj
  rcases exec_seqInsert_cases h with ⟨-, rfl⟩ | ⟨-, rfl⟩
  · rw [State.respond_buf, State.appendElem_buf]
    exact Memory.read_appendElem_of_disjoint hwf _ v fun k hk => by omega
  · rw [State.raise_buf]

/-! ### The payload (R59) -/

theorem State.Inv.widthBounds {s : State} (hs : s.Inv) : 0 < s.W ∧ s.W ≤ 64 :=
  ((Params.wellFormed_iff _).1 hs.paramsLegal).1

theorem State.elems_length (s : State) : s.elems.length = s.count := by simp [State.elems]

/-- States with the same elements have the same number of them and the same value of each. -/
theorem State.count_and_elem_of_elems_eq {s t : State} (h : s.elems = t.elems) :
    t.count = s.count ∧ ∀ i < s.count, t.elem i = s.elem i := by
  have hcount : t.count = s.count := by rw [← s.elems_length, ← t.elems_length, h]
  refine ⟨hcount, fun i hi => ?_⟩
  rw [State.elems, State.elems, hcount, List.map_inj_left] at h
  exact (h i (List.mem_range.2 hi)).symm

/-- The elements and the padding invariant (R26) fix every bit of BUF. -/
theorem State.Inv.bit_eq_of_elems {s t : State} (hs : s.Inv) (ht : t.Inv) (hp : t.params = s.params)
    (hcount : t.count = s.count) (helem : ∀ i < s.count, t.elem i = s.elem i) (b : Nat) : t.bit b = s.bit b := by
  obtain ⟨hW0, hW64⟩ := hs.widthBounds
  have hW : t.W = s.W := congrArg Params.W hp
  rcases Nat.lt_or_ge b (s.count * s.W) with hin | hout
  · have hi := helem (b / s.W) (Nat.div_lt_of_lt_mul (by rwa [Nat.mul_comm]))
    unfold State.elem at hi
    rw [hp, hW] at hi
    rw [State.bit, State.bit, hp, Memory.getBit_eq_elem_getLsbD t.buf _ hW0 hW64,
      Memory.getBit_eq_elem_getLsbD s.buf _ hW0 hW64, hi]
  · rw [hs.bit_of_le hout, ht.bit_of_le (by rwa [hcount, hW])]

/-- Settles O34: equal elements give equal COUNT, so equal lengths (R24), and equal bits of two canonical buffers. -/
theorem payloadIsFixedByTheElements : Obligations.PayloadIsFixedByTheElements := by
  intro s t hs ht hp hel
  obtain ⟨hcount, helem⟩ := State.count_and_elem_of_elems_eq hel
  have hlen : s.buf.len = t.buf.len := by
    rw [hs.lengthExact, ht.lengthExact, hcount, State.W, State.W, hp]
  have hbuf : s.buf = t.buf := Memory.eq_of_getBit s.params.bitOrder hs.bufCanonical ht.bufCanonical hlen fun b => by
    have hbit := hs.bit_eq_of_elems ht hp.symm hcount helem b
    rw [State.bit, State.bit, ← hp] at hbit
    exact hbit.symm
  exact ⟨by rw [State.payload, State.payload, hbuf], hbuf, hcount.symm⟩

/-! ### The order of acceptance between hosts (R56) -/

theorem State.synced_iff {s : State} {x : Send} :
    s.synced x = true ↔ ∀ p ∈ x.after, p.2 ≤ (s.receivedOf p.1).length := by
  simp [State.synced]

/-- A host with commands to send is one of the listed hosts. -/
theorem State.agent_of_sendsOf {s : State} {h : Nat} {x : Send} {rest : List Send} (hs : s.sendsOf h = x :: rest) :
    ∃ received, s.agents[h]? = some ⟨x :: rest, received⟩ := by
  unfold State.sendsOf at hs
  split at hs
  case h_1 a ha => exact ⟨a.received, by rw [ha, ← hs]⟩
  case h_2 => cases hs

section Accept

variable {s : State} {h : Nat} {x : Send} {rest : List Send} {received : List Response}

theorem State.acceptFrom_request (hs : s.agents[h]? = some ⟨x :: rest, received⟩) :
    (s.acceptFrom h).request = some x.request := by
  rw [acceptFrom_of_issue hs]

theorem State.acceptFrom_owner (hs : s.agents[h]? = some ⟨x :: rest, received⟩) :
    (s.acceptFrom h).owner = some h := by
  rw [acceptFrom_of_issue hs]

theorem State.acceptFrom_sameSeq (hs : s.agents[h]? = some ⟨x :: rest, received⟩) : s.SameSeq (s.acceptFrom h) := by
  rw [acceptFrom_of_issue hs]
  exact ⟨rfl, rfl, rfl⟩

end Accept

/-- A step with no reset asserted and the port free is an acceptance, whatever the arbiter. -/
theorem stepWith_of_free {s : State} (arbiter : Nat → Nat) (hreset : s.resetIn = false) (hreq : s.request = none)
    (hresp : s.response = none) : stepWith arbiter s = .next (s.acceptNext arbiter) := by
  simp [stepWith, hreset, hreq, hresp]

/-- Every host that may send is the one some arbiter picks. -/
theorem exists_acceptNext_eq_acceptFrom {s : State} {h : Nat} (hm : s.maySend h = true) :
    ∃ arbiter, s.acceptNext arbiter = s.acceptFrom h := by
  obtain ⟨k, hk⟩ := List.mem_iff_getElem?.1 (mem_ready.2 hm)
  have hlt : k < s.ready.length := (List.getElem?_eq_some_iff.1 hk).1
  exact ⟨fun _ => k, by simp only [State.acceptNext, Nat.mod_eq_of_lt hlt, hk]⟩

/-- Settles O57: the two cases of the free port, and an arbiter for each host that may send. -/
theorem acceptanceKeepsEachHostsOrder : Obligations.AcceptanceKeepsEachHostsOrder := by
  intro s hreset hreq hresp
  refine ⟨fun arbiter t hstep => ?order, fun h x rest hsends hafter => ?everyHost⟩
  case order =>
    rw [stepWith_of_free arbiter hreset hreq hresp] at hstep
    cases hstep
    rcases acceptNext_cases arbiter s with ⟨hwait, hnone⟩ | ⟨h, x, rest, received, hagent, hsynced, htake⟩
    · refine .inl ⟨hwait, fun h x rest hsends => ?_⟩
      by_contra hall
      push Not at hall
      obtain ⟨received, hagent⟩ := State.agent_of_sendsOf hsends
      exact Bool.false_ne_true <|
        (hnone h).symm.trans (maySend_iff.2 ⟨x, rest, received, hagent, State.synced_iff.2 hall⟩)
    · rw [← acceptFrom_of_issue hagent] at htake
      have hsends := State.acceptFrom_sendsOf hagent
      rw [htake]
      exact .inr ⟨h, x, rest, State.sendsOf_of_some hagent, State.synced_iff.1 hsynced,
        State.acceptFrom_request hagent, State.acceptFrom_owner hagent,
        (hsends h).trans (if_pos rfl), fun h' hne => (hsends h').trans (if_neg hne),
        State.acceptFrom_receivedOf hagent, State.acceptFrom_sameSeq hagent⟩
  case everyHost =>
    obtain ⟨received, hagent⟩ := State.agent_of_sendsOf hsends
    obtain ⟨arbiter, harb⟩ :=
      exists_acceptNext_eq_acceptFrom (maySend_iff.2 ⟨x, rest, received, hagent, State.synced_iff.2 hafter⟩)
    have hstep : stepWith arbiter s = .next (s.acceptFrom h) := by
      rw [stepWith_of_free arbiter hreset hreq hresp, harb]
    exact ⟨arbiter, s.acceptFrom h, hstep, State.acceptFrom_owner hagent, State.acceptFrom_request hagent⟩

end Sys2Proof.Machine
end

section
/-! PROOFS. The encoding (30_encoding.md): the decoder and the encoder are inverse to each other (R70, R75), what is a
command is a row of the table (R69, R73), and the fields of a word are numbers (R63).

What holds of the nineteen rows of the opcode map is said once of each row; decoding and encoding then go through the
row a word has. -/

namespace Sys2Proof

/-! ### The rows of the opcode map -/

/-- No two rows have one opcode, so looking a row's opcode up gives that row. -/
theorem opcodeRow_of_mem {row : OpcodeRow} (h : row ∈ opcodeMap) : opcodeRow row.op = some row := by
  fin_cases h <;> rfl

/-- An opcode is illegal exactly when it is not in the table (R71). -/
theorem opcodeRow_eq_none_iff (op : Byte) : opcodeRow op = none ↔ op ∉ opcodeMap.map OpcodeRow.op := by
  simp [opcodeRow]

/-- The word of a format with this opcode and the operand fields of `cmd`, its reserved bits 0 (R62). -/
def Format.word (f : Format) (op : Byte) (cmd : CmdWord) : CmdWord :=
  match f with
  | .S => op.setWidth 32
  | .N => op.setWidth 32
  | .TM => cmdTM op (fieldT cmd) (fieldM cmd)
  | .KM => cmdKM op (fieldK cmd) (fieldM cmd)
  | .M => cmdM op (fieldM cmd)
  | .D => cmdD op (fieldD1 cmd)
  | .DD => cmdDD op (fieldD1 cmd) (fieldD2 cmd)

/-- A word with its reserved bits 0 has nothing but its opcode and its operand fields. -/
theorem Format.word_fieldOp {f : Format} {cmd : CmdWord} (h : cmd &&& f.reservedMask = 0) :
    f.word (fieldOp cmd) cmd = cmd := by
  cases f with
  | S => exact cmdS_fields h
  | N => exact cmdS_fields h
  | TM => exact cmdTM_fields h
  | KM => exact cmdKM_fields h
  | M => exact cmdM_fields h
  | D => exact cmdD_fields h
  | DD => exact cmdDD_fields h

theorem encode_build_cmd {row : OpcodeRow} (h : row ∈ opcodeMap) (cmd : CmdWord) (data : DataWord) :
    (encode (row.build cmd data)).cmd = row.format.word row.op cmd := by
  fin_cases h <;> rfl

theorem encode_build_data {row : OpcodeRow} (h : row ∈ opcodeMap) (cmd : CmdWord) (data : DataWord) :
    (encode (row.build cmd data)).data = if (row.build cmd data).readsData then data else 0 := by
  fin_cases h <;> rfl

/-- Row by row: the command reads DATA, or its operands do not mention it (R63). -/
theorem build_congr_data {row : OpcodeRow} (h : row ∈ opcodeMap) {cmd : CmdWord} {data : DataWord}
    (hreads : (row.build cmd data).readsData = false) (data' : DataWord) :
    row.build cmd data' = row.build cmd data := by
  fin_cases h <;> simp [Instr.readsData] at hreads ⊢

/-! ### What the decoder accepts -/

/-- Accepted as a command means: of a row of the table, with the row's opcode, no reserved bit set, and the row's
command of the request's operands. -/
theorem decode_eq_ok_iff {req : Request} {i : Instr} :
    decode req = .ok i ↔ ∃ row ∈ opcodeMap, fieldOp req.cmd = row.op ∧
      req.cmd &&& row.format.reservedMask = 0 ∧ i = row.build req.cmd req.data := by
  constructor
  · intro h
    obtain ⟨row, hrow, hres, hi⟩ := decode_ok_cases h
    obtain ⟨hmem, hop⟩ := opcodeRow_mem hrow
    exact ⟨row, hmem, hop.symm, hres, hi⟩
  · rintro ⟨row, hmem, hop, hres, rfl⟩
    exact decode_of_row (hop ▸ opcodeRow_of_mem hmem) hres

theorem decode_of_opcodeRow_eq_none {req : Request} (h : opcodeRow (fieldOp req.cmd) = none) :
    decode req = .error .unassignedOpcode := by
  simp [decode, h]

theorem decode_of_reserved {req : Request} {row : OpcodeRow} (h : opcodeRow (fieldOp req.cmd) = some row)
    (hres : req.cmd &&& row.format.reservedMask ≠ 0) : decode req = .error .reservedBitSet := by
  simp only [decode, h]
  exact if_neg hres

/-! ### Decoding an encoded word, format by format -/

/-- A word that is only its opcode (formats S and N) has that opcode. -/
theorem fieldOp_setWidth (op : Byte) : fieldOp (op.setWidth 32) = op := by
  refine BitVec.eq_of_getLsbD_eq fun b hb => ?_
  simp [fieldOp, hb, Nat.lt_trans hb]

theorem reserved_setWidth (op : Byte) : op.setWidth 32 &&& Format.reservedMask .S = 0 := by
  refine BitVec.eq_of_getLsbD_eq fun b hb => ?_
  interval_cases b <;> simp [Format.reservedMask]

section Formats

variable {op : Byte} (data : DataWord)

theorem decode_cmdS {f : DataWord → Instr} (h : opcodeRow op = some ⟨op, .S, fun _ data => f data⟩) :
    decode ⟨op.setWidth 32, data⟩ = .ok (f data) :=
  decode_of_row (req := ⟨op.setWidth 32, data⟩) ((congrArg opcodeRow (fieldOp_setWidth op)).trans h)
    (reserved_setWidth op)

theorem decode_cmdTM {f : TypeField → ModField → Instr}
    (h : opcodeRow op = some ⟨op, .TM, fun cmd _ => f (fieldT cmd) (fieldM cmd)⟩) (t : TypeField) (m : ModField) :
    decode ⟨cmdTM op t m, data⟩ = .ok (f t m) := by
  have hrow := (congrArg opcodeRow (fieldOp_cmdTM op t m)).trans h
  simpa only [fieldT_cmdTM, fieldM_cmdTM] using
    decode_of_row (req := ⟨cmdTM op t m, data⟩) hrow (reserved_cmdTM op t m)

theorem decode_cmdKM {f : KindOrdinal → ModField → Instr}
    (h : opcodeRow op = some ⟨op, .KM, fun cmd _ => f (fieldK cmd) (fieldM cmd)⟩) (k : KindOrdinal) (m : ModField) :
    decode ⟨cmdKM op k m, data⟩ = .ok (f k m) := by
  have hrow := (congrArg opcodeRow (fieldOp_cmdKM op k m)).trans h
  simpa only [fieldK_cmdKM, fieldM_cmdKM] using
    decode_of_row (req := ⟨cmdKM op k m, data⟩) hrow (reserved_cmdKM op k m)

theorem decode_cmdM {f : ModField → Instr} (h : opcodeRow op = some ⟨op, .M, fun cmd _ => f (fieldM cmd)⟩)
    (m : ModField) : decode ⟨cmdM op m, data⟩ = .ok (f m) := by
  have hrow := (congrArg opcodeRow (fieldOp_cmdM op m)).trans h
  simpa only [fieldM_cmdM] using
    decode_of_row (req := ⟨cmdM op m, data⟩) hrow (reserved_cmdM op m)

theorem decode_cmdD {f : Byte → Instr} (h : opcodeRow op = some ⟨op, .D, fun cmd _ => f (fieldD1 cmd)⟩) (d : Byte) :
    decode ⟨cmdD op d, data⟩ = .ok (f d) := by
  have hrow := (congrArg opcodeRow (fieldOp_cmdD op d)).trans h
  simpa only [fieldD1_cmdD] using
    decode_of_row (req := ⟨cmdD op d, data⟩) hrow (reserved_cmdD op d)

theorem decode_cmdDD {f : Byte → Byte → Instr}
    (h : opcodeRow op = some ⟨op, .DD, fun cmd _ => f (fieldD1 cmd) (fieldD2 cmd)⟩) (d1 d2 : Byte) :
    decode ⟨cmdDD op d1 d2, data⟩ = .ok (f d1 d2) := by
  have hrow := (congrArg opcodeRow (fieldOp_cmdDD op d1 d2)).trans h
  simpa only [fieldD1_cmdDD, fieldD2_cmdDD] using
    decode_of_row (req := ⟨cmdDD op d1 d2, data⟩) hrow (reserved_cmdDD op d1 d2)

end Formats

/-- Settles O1: the formats S and N have one word for each opcode; the others go through their fields. -/
theorem decodeOfEncode : Obligations.DecodeOfEncode := by
  intro i
  cases i with
  | seqInsert v => exact decode_cmdS (op := 0x01) (f := .seqInsert) v rfl
  | seqRetrieve idx => exact decode_cmdS (op := 0x02) (f := .seqRetrieve) idx rfl
  | seqByteRead j => exact decode_cmdS (op := 0x06) (f := .seqByteRead) j rfl
  | mdMake t m => exact decode_cmdTM (f := .mdMake) 0 rfl t m
  | mdRemain k m => exact decode_cmdKM (f := .mdRemain) 0 rfl k m
  | mdEnter k m => exact decode_cmdKM (f := .mdEnter) 0 rfl k m
  | mdExit k m => exact decode_cmdKM (f := .mdExit) 0 rfl k m
  | mdEnterAndExit k m => exact decode_cmdKM (f := .mdEnterAndExit) 0 rfl k m
  | mdEnterAtExit k m => exact decode_cmdKM (f := .mdEnterAtExit) 0 rfl k m
  | mdSuppressed m => exact decode_cmdM (f := .mdSuppressed) 0 rfl m
  | mdEq d1 d2 => exact decode_cmdDD (f := .mdEq) 0 rfl d1 d2
  | mdNe d1 d2 => exact decode_cmdDD (f := .mdNe) 0 rfl d1 d2
  | mdGetType d => exact decode_cmdD (f := .mdGetType) 0 rfl d
  | mdGetModifier d => exact decode_cmdD (f := .mdGetModifier) 0 rfl d
  | _ => rfl

/-- Settles O2: the word is that of its fields in its row's format. -/
theorem encodeOfDecode : Obligations.EncodeOfDecode := by
  intro req i h
  obtain ⟨row, hmem, hop, hres, rfl⟩ := decode_eq_ok_iff.1 h
  refine ⟨?cmd, encode_build_data hmem _ _⟩
  case cmd => rw [encode_build_cmd hmem, ← hop, Format.word_fieldOp hres]

/-! ### The table's masks (R73) -/

/-- The bits of `OP` in a command word (R61). -/
def opMask : CmdWord := (BitVec.allOnes 8).setWidth 32

theorem opMask_getLsbD (b : Nat) : opMask.getLsbD b = decide (b < 8) := by
  rw [opMask, BitVec.getLsbD_setWidth, BitVec.getLsbD_allOnes, ← Bool.decide_and, decide_eq_decide]
  omega

theorem and_opMask (cmd : CmdWord) : cmd &&& opMask = (fieldOp cmd).setWidth 32 := by
  refine BitVec.eq_of_getLsbD_eq fun b hb => ?_
  rw [BitVec.getLsbD_and, opMask_getLsbD, fieldOp, BitVec.getLsbD_setWidth, BitVec.getLsbD_extractLsb', Nat.zero_add,
    decide_eq_true hb, Bool.true_and, Bool.and_comm]

/-- No bit of the opcode is reserved. -/
theorem Format.reservedMask_and_opMask (f : Format) : f.reservedMask &&& opMask = 0 := by cases f <;> rfl

/-- Matching a row's word under its opcode bits and reserved bits is having its opcode and no reserved bit set: the
two parts of the mask have no bit in common. -/
theorem Format.and_mask_eq_iff (f : Format) (cmd : CmdWord) (op : Byte) :
    cmd &&& (f.reservedMask ||| opMask) = op.setWidth 32 ↔ fieldOp cmd = op ∧ cmd &&& f.reservedMask = 0 := by
  constructor
  · intro h
    have hopcode : (fieldOp cmd).setWidth 32 = op.setWidth 32 := calc
      (fieldOp cmd).setWidth 32 = cmd &&& opMask := (and_opMask cmd).symm
      _ = cmd &&& (f.reservedMask ||| opMask) &&& opMask := by
        rw [BitVec.and_assoc, show (f.reservedMask ||| opMask) &&& opMask = opMask by cases f <;> rfl]
      _ = op.setWidth 32 := by rw [h, and_opMask, fieldOp_setWidth]
    have hreserved : cmd &&& f.reservedMask = 0 := calc
      cmd &&& f.reservedMask = cmd &&& (f.reservedMask ||| opMask) &&& f.reservedMask := by
        rw [BitVec.and_assoc,
          show (f.reservedMask ||| opMask) &&& f.reservedMask = f.reservedMask by cases f <;> rfl]
      _ = op.setWidth 32 &&& opMask &&& f.reservedMask := by rw [h, and_opMask, fieldOp_setWidth]
      _ = 0 := by
        rw [BitVec.and_assoc, BitVec.and_comm opMask, f.reservedMask_and_opMask]
        exact BitVec.and_zero
    exact ⟨by rw [← fieldOp_setWidth (fieldOp cmd), hopcode, fieldOp_setWidth], hreserved⟩
  · rintro ⟨rfl, hres⟩
    rw [BitVec.and_or_distrib_left, hres, and_opMask]
    exact BitVec.zero_or

/-- The mask and the match that spec/opcode_table.json gives a row. -/
def OpcodeRow.maskMatch (row : OpcodeRow) : CmdWord × CmdWord :=
  (row.format.reservedMask ||| opMask, row.op.setWidth 32)

/-- Settles O3: the nineteen pairs are those of the opcode map's rows. -/
theorem commandsAreExactlyTheTableRows : Obligations.CommandsAreExactlyTheTableRows := by
  intro cmd data
  change _ ↔ ∃ pair ∈ opcodeMap.map OpcodeRow.maskMatch, cmd &&& pair.1 = pair.2
  simp only [decode_eq_ok_iff, List.mem_map, exists_exists_and_eq_and, OpcodeRow.maskMatch, Format.and_mask_eq_iff]
  constructor
  · rintro ⟨i, row, hmem, hop, hres, -⟩
    exact ⟨row, hmem, hop, hres⟩
  · rintro ⟨row, hmem, hop, hres⟩
    exact ⟨_, row, hmem, hop, hres, rfl⟩

/-- Settles O6: each of the six words is evaluated by the decoder. -/
theorem sampleWordsDecode : Obligations.SampleWordsDecode := ⟨rfl, rfl, rfl, rfl, rfl, rfl⟩

/-! ### Fields as numbers -/

theorem toNat_extractLsb'_eq_div_mod {n : Nat} (x : BitVec n) (start len : Nat) :
    (x.extractLsb' start len).toNat = x.toNat / 2 ^ start % 2 ^ len := by
  rw [BitVec.extractLsb'_toNat, Nat.shiftRight_eq_div_pow]

/-- Settles O8: every field is a slice of the word; the opcode starts at bit 0. -/
theorem operandsAreUnsignedFields : Obligations.OperandsAreUnsignedFields := by
  intro cmd
  refine ⟨?opcode, ?_, ?_, ?_, ?_, ?_⟩
  case opcode =>
    rw [fieldOp, toNat_extractLsb'_eq_div_mod, pow_zero, Nat.div_one]
  all_goals exact toNat_extractLsb'_eq_div_mod _ _ _

/-- A field shifted to its place above what is already there adds as a number. -/
theorem toNat_shiftLeft_or {n w i : Nat} (a : BitVec n) (b : BitVec w) (ha : n + i ≤ w) (hb : b.toNat < 2 ^ i) :
    (a.setWidth w <<< i ||| b).toNat = a.toNat * 2 ^ i + b.toNat := by
  have hshift : (a.setWidth w <<< i).toNat = a.toNat <<< i := by
    rw [BitVec.toNat_shiftLeft, BitVec.toNat_setWidth_of_le (by omega), Nat.mod_eq_of_lt]
    calc a.toNat <<< i = a.toNat * 2 ^ i := Nat.shiftLeft_eq _ _
      _ < 2 ^ n * 2 ^ i := Nat.mul_lt_mul_of_pos_right a.isLt (Nat.two_pow_pos i)
      _ = 2 ^ (n + i) := (Nat.pow_add 2 n i).symm
      _ ≤ 2 ^ w := Nat.pow_le_pow_right (by decide) ha
  rw [BitVec.toNat_or, hshift, ← Nat.shiftLeft_add_eq_or_of_lt hb, Nat.shiftLeft_eq]

end Sys2Proof
end

section
/-! PROOFS. The step at an outstanding request (30_encoding.md R60, R70): the decoded command, or an answer that changes
nothing (R71, R72), the one response that each request gets, and the fields of the descriptor bytes (R64, R65). -/

namespace Sys2Proof.Machine

/-! ### A step at an outstanding request -/

theorem perform_of_decode_ok {s : State} {req : Request} {i : Instr} (h : decode req = .ok i) :
    s.perform req = exec i s := by
  simp [State.perform, h]

theorem perform_of_decode_error {s : State} {req : Request} {e : DecodeError} (h : decode req = .error e) :
    s.perform req = .next (s.raise .illegalCommand) := by
  simp [State.perform, h]

theorem step_of_request {s : State} {req : Request} (hreset : s.resetIn = false) (hreq : s.request = some req) :
    step s = s.perform req := by
  simp [step, stepWith, hreset, hreq]

theorem step_of_response {s : State} {r : Response} (hreset : s.resetIn = false) (hreq : s.request = none)
    (hresp : s.response = some r) : step s = .next (s.deliver r) := by
  simp [step, stepWith, hreset, hreq, hresp]

theorem step_of_reset {s : State} (hreset : s.resetIn = true) : step s = .next s.blockReset := if_pos hreset

/-- Settles O9: with no reset the outstanding request is performed, and performing it is decoding it first. -/
theorem stepPerformsTheDecodedCommand : Obligations.StepPerformsTheDecodedCommand := by
  intro s req i hreset hreq hdec
  rw [step_of_request hreset hreq, perform_of_decode_ok hdec]

theorem decode_of_decodeTableWord {nbits w : Nat} {i : Instr} (h : decodeTableWord nbits w = some i) :
    decode (requestOfBits nbits w) = .ok i := by
  unfold decodeTableWord at h
  split at h
  case h_1 hdec => rw [hdec, Option.some.inj h]
  case h_2 => cases h

/-- Settles O10: the loaded word is the outstanding request, and no reset is asserted. -/
theorem fetchWordRunsNext : Obligations.FetchWordRunsNext := by
  intro s nbits w i h
  exact stepPerformsTheDecodedCommand _ _ i (s.withFetchWord_resetIn nbits w) (s.withFetchWord_request nbits w)
    (decode_of_decodeTableWord h)

/-! ### Words that are no command (R71, R72) -/

/-- A request that does not decode is answered ILLEGAL_COMMAND with RESULT 0, and nothing but the port changes. -/
theorem step_of_decode_error {s : State} {req : Request} {e : DecodeError} (hreset : s.resetIn = false)
    (hreq : s.request = some req) (hdec : decode req = .error e) :
    ∃ t, step s = .next t ∧ Answered t 4 0 ∧ SameButPort s t :=
  ⟨_, (step_of_request hreset hreq).trans (perform_of_decode_error hdec), ⟨rfl, rfl⟩,
    s.answer_sameButPort .illegalCommand 0⟩

/-- R71's ranges are what the opcode map leaves out. -/
theorem illegalOpcode_iff (op : Byte) :
    (op.toNat = 0 ∨ (0x07 ≤ op.toNat ∧ op.toNat ≤ 0x0F) ∨ 0x1D ≤ op.toNat) ↔ opcodeRow op = none := by
  rw [opcodeRow_eq_none_iff]
  simp only [opcodeMap, List.map_cons, List.map_nil, List.mem_cons, List.not_mem_nil, or_false, ← BitVec.toNat_inj,
    BitVec.reduceToNat, not_or]
  omega

/-- Settles O4: an illegal opcode has no row, so the word does not decode. -/
theorem illegalOpcodeChangesNothing : Obligations.IllegalOpcodeChangesNothing := by
  refine ⟨rfl, illegalOpcode_iff, fun s req hreset hreq hill => ?step⟩
  case step =>
    obtain ⟨hop, -⟩ := operandsAreUnsignedFields req.cmd
    rw [show req.cmd.toNat % 256 = (fieldOp req.cmd).toNat from hop.symm] at hill
    exact step_of_decode_error hreset hreq (decode_of_opcodeRow_eq_none ((illegalOpcode_iff _).1 hill))

/-- Settles O5: a bit that is set in the word and in the mask makes their conjunction non-zero. -/
theorem reservedBitChangesNothing : Obligations.ReservedBitChangesNothing := by
  intro s req row b hreset hreq hrow hmask hbit
  refine step_of_decode_error hreset hreq (decode_of_reserved hrow fun hzero => ?_)
  rw [bit_of_reserved hzero hmask] at hbit
  cases hbit

/-! ### Ignored DATA (R63) -/

/-- No command looks at the port's request word: each answers it away. -/
theorem exec_request (i : Instr) (s : State) (r : Option Request) : exec i { s with request := r } = exec i s := by
  cases i <;> rfl

theorem step_of_decode_ok {s : State} {req : Request} {i : Instr} (hreset : s.resetIn = false)
    (hdec : decode req = .ok i) : step { s with request := some req } = exec i s :=
  (stepPerformsTheDecodedCommand { s with request := some req } req i hreset rfl hdec).trans (exec_request i s _)

theorem decode_congr_data {cmd : CmdWord} {d : DataWord} {i : Instr} (h : decode ⟨cmd, d⟩ = .ok i)
    (hreads : i.readsData = false) (d' : DataWord) : decode ⟨cmd, d'⟩ = .ok i := by
  obtain ⟨row, hmem, hop, hres, rfl⟩ := decode_eq_ok_iff.1 h
  exact decode_eq_ok_iff.2 ⟨row, hmem, hop, hres, (build_congr_data hmem hreads d').symm⟩

/-- Settles O7: both words decode to one command, and an asserted reset drops either of them. -/
theorem ignoredDataDoesNotMatter : Obligations.IgnoredDataDoesNotMatter := by
  intro cmd d d' i hdec hreads
  have hdec' := decode_congr_data hdec hreads d'
  refine ⟨hdec', fun s => ?step⟩
  case step =>
    by_cases hreset : s.resetIn = true
    · exact (step_of_reset (s := { s with request := some ⟨cmd, d⟩ }) hreset).trans
        (step_of_reset (s := { s with request := some ⟨cmd, d'⟩ }) hreset).symm
    · have hreset := Bool.eq_false_of_not_eq_true hreset
      rw [step_of_decode_ok hreset hdec, step_of_decode_ok hreset hdec']

/-! ### No step stops -/

/-- SEQ_RETRIEVE at or beyond COUNT (R103). -/
theorem exec_seqRetrieve_of_le {s : State} {idx : DataWord} (h : s.count ≤ idx.toNat) :
    exec (.seqRetrieve idx) s = .next (s.raise .rangeError) := by
  have hstatus : s.retrieveStatus idx = .rangeError := if_pos h
  simp [exec, execSeqRetrieve, hstatus]

/-- The one command that can stop retrieves an element held, and its bytes exist. -/
theorem exec_next_of_inv {s : State} (hs : s.Inv) (i : Instr) : ∃ t, exec i s = .next t := by
  cases i with
  | seqRetrieve idx =>
    rcases Nat.lt_or_ge idx.toNat s.count with hlt | hge
    · exact ⟨_, (exec_seqRetrieve_of_lt hlt).trans (if_pos (hs.elemPresent hlt))⟩
    · exact ⟨_, exec_seqRetrieve_of_le hge⟩
  | _ => exact ⟨_, rfl⟩

theorem perform_next_of_inv {s : State} (hs : s.Inv) (req : Request) : ∃ t, s.perform req = .next t := by
  cases hdec : decode req with
  | ok i => rw [perform_of_decode_ok hdec]; exact exec_next_of_inv hs i
  | error e => exact ⟨_, perform_of_decode_error hdec⟩

/-- Settles O17: only performing a request can stop, and under the invariant it does not. -/
theorem stepNeverStops : Obligations.StepNeverStops := by
  intro s hs
  cases hreset : s.resetIn with
  | true => exact ⟨_, step_of_reset hreset⟩
  | false =>
    cases hreq : s.request with
    | some req => rw [step_of_request hreset hreq]; exact perform_next_of_inv hs req
    | none =>
      cases hresp : s.response with
      | some r => exact ⟨_, step_of_response hreset hreq hresp⟩
      | none => exact ⟨_, stepWith_of_free _ hreset hreq hresp⟩

/-! ### One response for each request (R60) -/

/-- Performing a request ends with a response at the port, and leaves the reset input and the hosts alone. -/
theorem perform_answered {s t : State} {req : Request} (h : s.perform req = .next t) :
    ∃ st r, Answered t st r ∧ SameButSeqAndPort s t := by
  cases hdec : decode req with
  | ok i =>
    rw [perform_of_decode_ok hdec] at h
    rcases exec_cases h with ⟨v, -, -, rfl⟩ | ⟨st, r, rfl, -⟩ <;>
      exact ⟨_, _, ⟨rfl, rfl⟩, rfl, rfl, rfl, rfl, rfl⟩
  | error e =>
    rw [perform_of_decode_error hdec] at h
    cases h
    exact ⟨_, _, ⟨rfl, rfl⟩, rfl, rfl, rfl, rfl, rfl⟩

/-- A delivery adds the response to its owner's list and leaves every other host as it is. -/
theorem State.deliver_agents_getElem? {s : State} {h : Nat} {a : Agent} (r : Response) (ha : s.agents[h]? = some a) :
    (s.deliver r).agents[h]? = some (if s.owner = some h then { a with received := a.received ++ [r] } else a) := by
  simp only [State.deliver]
  rcases s.owner with _ | o
  · simp [ha]
  · simp only [List.getElem?_modify, ha, Option.some.injEq]
    rfl

/-- Settles O11: performing the request puts its response on the port, and the next step delivers it. -/
theorem everyRequestGetsOneResponse : Obligations.EveryRequestGetsOneResponse := by
  intro s req hs hreset hreq
  obtain ⟨t, hperform⟩ := perform_next_of_inv hs req
  obtain ⟨st, r, ⟨htreq, htresp⟩, -, htreset, htagents, htowner, -⟩ := perform_answered hperform
  have hdeliver := step_of_response (htreset.trans hreset) htreq htresp
  refine ⟨t, ⟨st, r⟩, t.deliver ⟨st, r⟩, (step_of_request hreset hreq).trans hperform, htreq, htresp, htagents,
    hdeliver, htreq, rfl, fun h a ha => ?received⟩
  case received => rw [← htowner, State.deliver_agents_getElem? _ (htagents ▸ ha)]

theorem State.receivedOf_of_getElem? {s : State} {h : Nat} {a : Agent} (ha : s.agents[h]? = some a) :
    s.receivedOf h = a.received := by
  simp [State.receivedOf, ha]

/-- Taking a command puts no response on the port and delivers none. -/
theorem State.acceptNext_response (arbiter : Nat → Nat) (s : State) :
    (s.acceptNext arbiter).response = s.response ∧
      ∀ h, (s.acceptNext arbiter).receivedOf h = s.receivedOf h := by
  rcases acceptNext_cases arbiter s with ⟨hwait, -⟩ | ⟨h, x, rest, received, hagent, -, htake⟩
  · rw [hwait]
    exact ⟨rfl, fun _ => rfl⟩
  · have hreceived := State.acceptFrom_receivedOf hagent
    rw [acceptFrom_of_issue hagent] at hreceived
    rw [htake]
    exact ⟨rfl, hreceived⟩

/-- What a step with no request outstanding does to the port's response and to what the hosts have received. -/
theorem step_received_of_no_request {s t : State} (hreq : s.request = none) (h : step s = .next t) :
    t.response = none ∧ ∀ w, t.receivedOf w = s.receivedOf w ∨
      ∃ r, s.response = some r ∧ s.owner = some w ∧ t.receivedOf w = s.receivedOf w ++ [r] := by
  rcases stepWith_cases h with ⟨-, rfl⟩ | ⟨-, req, hsome, -⟩ | ⟨-, -, r, hresp, rfl⟩ | ⟨-, -, hresp, rfl⟩
  case inl => exact ⟨rfl, fun _ => .inl rfl⟩
  case inr.inl =>
    rw [hreq] at hsome
    cases hsome
  case inr.inr.inl =>
    refine ⟨rfl, fun w => ?_⟩
    rw [State.deliver_receivedOf]
    split
    case isTrue howner => exact .inr ⟨r, hresp, howner.1, rfl⟩
    case isFalse => exact .inl rfl
  case inr.inr.inr =>
    obtain ⟨hkept, hreceived⟩ := State.acceptNext_response Config.arbiter s
    exact ⟨hkept.trans hresp, fun w => .inl (hreceived w)⟩

/-- Settles O12: what a listed host has received is what the step lemma speaks of. -/
theorem noResponseWithoutRequest : Obligations.NoResponseWithoutRequest := by
  intro s t hreq hstep
  obtain ⟨hresp, hreceived⟩ := step_received_of_no_request hreq hstep
  refine ⟨hresp, fun h a b ha hb => ?_⟩
  rw [← State.receivedOf_of_getElem? ha, ← State.receivedOf_of_getElem? hb]
  exact hreceived h

/-! ### Descriptor bytes (R64, R65) -/

theorem desc_toNat (t : TypeField) (m : ModField) : (desc t m).toNat = m.toNat * 32 + t.toNat := by
  have ht : (t.setWidth 8).toNat = t.toNat := BitVec.toNat_setWidth_of_le (by decide)
  rw [desc, toNat_shiftLeft_or m _ (by decide) (ht ▸ t.isLt), ht]
  rfl

theorem typeOf_toNat (d : Byte) : (typeOf d).toNat = d.toNat % 32 := by
  rw [typeOf, toNat_extractLsb'_eq_div_mod, pow_zero, Nat.div_one]
  rfl

theorem modOf_toNat (d : Byte) : (modOf d).toNat = d.toNat / 32 % 8 := toNat_extractLsb'_eq_div_mod d 5 3

/-- Settles O45: as numbers the fields are the quotient and the remainder by 32. -/
theorem descriptorFields : Obligations.DescriptorFields := by
  refine ⟨fun t m => ⟨desc_toNat t m, ?type, ?modifier⟩, fun d => ?byte⟩ <;> apply BitVec.eq_of_toNat_eq
  case type =>
    rw [typeOf_toNat, desc_toNat]
    omega
  case modifier =>
    rw [modOf_toNat, desc_toNat]
    omega
  case byte =>
    rw [desc_toNat, typeOf_toNat, modOf_toNat]
    omega

end Sys2Proof.Machine
end

section
/-! PROOFS. The assembler (30_encoding.md R75, R76): which operands a line may have, and the numbers of the two words
its request is made of. -/

namespace Sys2Proof

/-! ### The encoder's words as numbers (the CMD column of R75) -/

theorem setWidth_op_toNat (op : Byte) : (op.setWidth 32).toNat = op.toNat :=
  BitVec.toNat_setWidth_of_le (by decide)

theorem cmdM_toNat (op : Byte) (m : ModField) : (cmdM op m).toNat = m.toNat * 2 ^ 13 + op.toNat := by
  have hop := setWidth_op_toNat op
  rw [cmdM, toNat_shiftLeft_or m _ (by decide) (by omega), hop]

theorem cmdD_toNat (op d1 : Byte) : (cmdD op d1).toNat = d1.toNat * 2 ^ 8 + op.toNat := by
  have hop := setWidth_op_toNat op
  rw [cmdD, toNat_shiftLeft_or d1 _ (by decide) (by omega), hop]

/-- A kind above a word of format M. -/
theorem cmdKM_toNat (op : Byte) (k : KindOrdinal) (m : ModField) :
    (cmdKM op k m).toNat = k.toNat * 2 ^ 16 + m.toNat * 2 ^ 13 + op.toNat := by
  have hlow := cmdM_toNat op m
  rw [cmdKM, BitVec.or_assoc, ← cmdM, toNat_shiftLeft_or k _ (by decide) (by omega), hlow, Nat.add_assoc]

/-- A second descriptor above a word of format D. -/
theorem cmdDD_toNat (op d1 d2 : Byte) :
    (cmdDD op d1 d2).toNat = d2.toNat * 2 ^ 16 + d1.toNat * 2 ^ 8 + op.toNat := by
  have hlow := cmdD_toNat op d1
  rw [cmdDD, BitVec.or_assoc, ← cmdD, toNat_shiftLeft_or d2 _ (by decide) (by omega), hlow, Nat.add_assoc]

theorem cmdTM_toNat (op : Byte) (t : TypeField) (m : ModField) :
    (cmdTM op t m).toNat = m.toNat * 2 ^ 13 + t.toNat * 2 ^ 8 + op.toNat := by
  have hop := setWidth_op_toNat op
  have hlow := toNat_shiftLeft_or (i := 8) t (op.setWidth 32) (by decide) (by omega)
  rw [cmdTM, BitVec.or_assoc, toNat_shiftLeft_or m _ (by decide) (by omega), hlow, hop, Nat.add_assoc]

/-! ### Operands that do not fit -/

theorem TOperand.fits_eq_false_iff {t : TOperand} : t.fits = false ↔ ∃ n, t = .num n ∧ 31 < n := by
  cases t <;> simp [TOperand.fits]

theorem MOperand.fits_eq_false_iff {m : MOperand} : m.fits = false ↔ ∃ n, m = .num n ∧ 7 < n := by
  cases m <;> simp [MOperand.fits]

theorem KOperand.fits_eq_false_iff {k : KOperand} : k.fits = false ↔ ∃ n, k = .num n ∧ 255 < n := by
  cases k <;> simp [KOperand.fits]

theorem descriptorFits_eq_false_iff {d : Nat} : descriptorFits d = false ↔ 255 < d :=
  decide_eq_false_iff_not.trans Nat.not_le

theorem dataFits_eq_false_iff {v : Nat} : dataFits v = false ↔ 2 ^ 64 - 1 < v :=
  decide_eq_false_iff_not.trans Nat.not_le

end Sys2Proof

namespace Sys2Proof.Machine

/-! ### Refused lines -/

theorem assemble_eq_none_iff {tc : TypeCodes} {line : AsmLine} : assemble tc line = none ↔ line.wellFormed = false := by
  simp [assemble]

/-- A line of two operands is refused for the one or for the other. -/
theorem assemble_eq_none_iff_or {tc : TypeCodes} {line : AsmLine} {a b : Bool} {p q : Prop}
    (hline : line.wellFormed = (a && b)) (ha : a = false ↔ p) (hb : b = false ↔ q) :
    assemble tc line = none ↔ p ∨ q := by
  rw [assemble_eq_none_iff, hline, Bool.and_eq_false_iff, ha, hb]

/-- Settles O59: each line's check is the conjunction of its operands' checks. -/
theorem assemblerRefusesWhatDoesNotFit : Obligations.AssemblerRefusesWhatDoesNotFit := by
  intro tc tBig mBig kBig
  have hdata {line : AsmLine} {v : Nat} (h : line.wellFormed = dataFits v) :
      assemble tc line = none ↔ 2 ^ 64 - 1 < v := by
    rw [assemble_eq_none_iff, h, dataFits_eq_false_iff]
  have hdesc {line : AsmLine} {d : Nat} (h : line.wellFormed = descriptorFits d) :
      assemble tc line = none ↔ 255 < d := by
    rw [assemble_eq_none_iff, h, descriptorFits_eq_false_iff]
  have hkm {line : AsmLine} {k : KOperand} {m : MOperand} (h : line.wellFormed = (k.fits && m.fits)) :
      assemble tc line = none ↔ kBig k ∨ mBig m :=
    assemble_eq_none_iff_or h KOperand.fits_eq_false_iff MOperand.fits_eq_false_iff
  have hdd {line : AsmLine} {d1 d2 : Nat} (h : line.wellFormed = (descriptorFits d1 && descriptorFits d2)) :
      assemble tc line = none ↔ 255 < d1 ∨ 255 < d2 :=
    assemble_eq_none_iff_or h descriptorFits_eq_false_iff descriptorFits_eq_false_iff
  refine ⟨fun _ => hdata rfl, fun _ => hdata rfl, fun _ => hdata rfl, fun _ _ => ?make, fun _ _ => hkm rfl,
    fun _ _ => hkm rfl, fun _ _ => hkm rfl, fun _ _ => hkm rfl, fun _ _ => hkm rfl, fun _ => ?suppressed,
    fun _ _ => hdd rfl, fun _ _ => hdd rfl, fun _ => hdesc rfl, fun _ => hdesc rfl, fun line hline => ?plain⟩
  case make => exact assemble_eq_none_iff_or rfl TOperand.fits_eq_false_iff MOperand.fits_eq_false_iff
  case suppressed => exact assemble_eq_none_iff.trans MOperand.fits_eq_false_iff
  case plain => fin_cases hline <;> exact Option.some_ne_none _

/-! ### The numbers that operands stand for -/

/-- A T operand that fits, as a number: the number written, or the label's TypeCode. -/
theorem tOperand_of_le {tc : TypeCodes} {t : TOperand} (h : tNumber tc t ≤ 31) :
    t.fits = true ∧ (asmType tc t).toNat = tNumber tc t := by
  cases t with
  | num n => exact ⟨decide_eq_true h, Nat.mod_eq_of_lt (Nat.lt_succ_of_le h)⟩
  | label l => exact ⟨rfl, rfl⟩

/-- An M operand that fits, as a number: the number written, or the name's code (R33). -/
theorem mOperand_of_le {m : MOperand} (h : mNumber m ≤ 7) :
    m.fits = true ∧ (asmModifier m).toNat = mNumber m := by
  cases m with
  | num n => exact ⟨decide_eq_true h, Nat.mod_eq_of_lt (Nat.lt_succ_of_le h)⟩
  | name d => cases d <;> exact ⟨rfl, rfl⟩

/-- A K operand that fits, as a number: the number written, or the kind's ordinal (R34). -/
theorem kOperand_of_le {k : KOperand} (h : kNumber k ≤ 255) :
    k.fits = true ∧ (asmKind k).toNat = kNumber k := by
  cases k with
  | num n => exact ⟨decide_eq_true h, Nat.mod_eq_of_lt (Nat.lt_succ_of_le h)⟩
  | name r => cases r <;> exact ⟨rfl, rfl⟩

/-- A D operand that fits, as a number. -/
theorem descriptor_of_le {d : Nat} (h : d ≤ 255) : descriptorFits d = true ∧ (BitVec.ofNat 8 d).toNat = d :=
  ⟨decide_eq_true h, Nat.mod_eq_of_lt (Nat.lt_succ_of_le h)⟩

/-! ### The words of a line, format by format -/

section Words

variable {tc : TypeCodes} {line : AsmLine} {op : Byte}

theorem lineIs_of_wellFormed {cmd data : Nat} (hline : line.wellFormed = true)
    (hcmd : (encode (asmCommand tc line)).cmd.toNat = cmd) (hdata : (encode (asmCommand tc line)).data.toNat = data) :
    LineIs tc line cmd data :=
  ⟨_, if_pos hline, hcmd, hdata⟩

theorem lineIs_of_data {cmd : CmdWord} {v : Nat} (hline : line.wellFormed = dataFits v)
    (hword : encode (asmCommand tc line) = ⟨cmd, BitVec.ofNat 64 v⟩) (hv : v ≤ 2 ^ 64 - 1) :
    LineIs tc line cmd.toNat v := by
  refine lineIs_of_wellFormed (hline.trans (decide_eq_true hv)) (by rw [hword]) ?_
  rw [hword]
  exact Nat.mod_eq_of_lt (by omega)

theorem lineIs_of_KM {k : KOperand} {m : MOperand} (hline : line.wellFormed = (k.fits && m.fits))
    (hword : encode (asmCommand tc line) = ⟨cmdKM op (asmKind k) (asmModifier m), 0⟩) (hk : kNumber k ≤ 255)
    (hm : mNumber m ≤ 7) : LineIs tc line (kNumber k * 2 ^ 16 + mNumber m * 2 ^ 13 + op.toNat) 0 := by
  obtain ⟨hkfits, hknum⟩ := kOperand_of_le hk
  obtain ⟨hmfits, hmnum⟩ := mOperand_of_le hm
  refine lineIs_of_wellFormed (by rw [hline, hkfits, hmfits]; rfl) ?_ (by rw [hword]; rfl)
  rw [hword, cmdKM_toNat, hknum, hmnum]

theorem lineIs_of_D {d : Nat} (hline : line.wellFormed = descriptorFits d)
    (hword : encode (asmCommand tc line) = ⟨cmdD op (BitVec.ofNat 8 d), 0⟩) (hd : d ≤ 255) :
    LineIs tc line (d * 2 ^ 8 + op.toNat) 0 := by
  obtain ⟨hfits, hnum⟩ := descriptor_of_le hd
  refine lineIs_of_wellFormed (hline.trans hfits) ?_ (by rw [hword]; rfl)
  rw [hword, cmdD_toNat, hnum]

theorem lineIs_of_DD {d1 d2 : Nat} (hline : line.wellFormed = (descriptorFits d1 && descriptorFits d2))
    (hword : encode (asmCommand tc line) = ⟨cmdDD op (BitVec.ofNat 8 d1) (BitVec.ofNat 8 d2), 0⟩) (hd1 : d1 ≤ 255)
    (hd2 : d2 ≤ 255) : LineIs tc line (d2 * 2 ^ 16 + d1 * 2 ^ 8 + op.toNat) 0 := by
  obtain ⟨hfits1, hnum1⟩ := descriptor_of_le hd1
  obtain ⟨hfits2, hnum2⟩ := descriptor_of_le hd2
  refine lineIs_of_wellFormed (by rw [hline, hfits1, hfits2]; rfl) ?_ (by rw [hword]; rfl)
  rw [hword, cmdDD_toNat, hnum1, hnum2]

theorem lineIs_mdMake {t : TOperand} {m : MOperand} (ht : tNumber tc t ≤ 31) (hm : mNumber m ≤ 7) :
    LineIs tc (.mdMake t m) (mNumber m * 2 ^ 13 + tNumber tc t * 2 ^ 8 + 0x12) 0 := by
  obtain ⟨htfits, htnum⟩ := tOperand_of_le ht
  obtain ⟨hmfits, hmnum⟩ := mOperand_of_le hm
  refine lineIs_of_wellFormed (by rw [AsmLine.wellFormed, htfits, hmfits]; rfl) ?_ rfl
  rw [← htnum, ← hmnum]
  exact cmdTM_toNat 0x12 _ _

theorem lineIs_mdSuppressed {m : MOperand} (hm : mNumber m ≤ 7) :
    LineIs tc (.mdSuppressed m) (mNumber m * 2 ^ 13 + 0x18) 0 := by
  obtain ⟨hfits, hnum⟩ := mOperand_of_le hm
  refine lineIs_of_wellFormed hfits ?_ rfl
  rw [← hnum]
  exact cmdM_toNat 0x18 _

end Words

/-- Settles O60: each line's word is its format's, with the numbers its operands stand for. -/
theorem assembledWordsFollowTheSyntaxTable : Obligations.AssembledWordsFollowTheSyntaxTable := by
  intro tc
  refine ⟨fun _ => lineIs_of_data (cmd := 0x01) rfl rfl, fun _ => lineIs_of_data (cmd := 0x02) rfl rfl,
    ⟨_, rfl, rfl, rfl⟩, ⟨_, rfl, rfl, rfl⟩, ⟨_, rfl, rfl, rfl⟩,
    fun _ => lineIs_of_data (cmd := 0x06) rfl rfl,
    ⟨_, rfl, rfl, rfl⟩, ⟨_, rfl, rfl, rfl⟩,
    fun _ _ => lineIs_mdMake, fun k m hk hm => ⟨?_, ?_, ?_, ?_, ?_⟩, fun _ => lineIs_mdSuppressed,
    fun d1 d2 hd1 hd2 => ⟨?_, ?_⟩, fun d hd => ⟨?_, ?_⟩, ⟨_, rfl, rfl, rfl⟩, rfl⟩
  · exact lineIs_of_KM (op := 0x13) rfl rfl hk hm
  · exact lineIs_of_KM (op := 0x14) rfl rfl hk hm
  · exact lineIs_of_KM (op := 0x15) rfl rfl hk hm
  · exact lineIs_of_KM (op := 0x16) rfl rfl hk hm
  · exact lineIs_of_KM (op := 0x17) rfl rfl hk hm
  · exact lineIs_of_DD (op := 0x19) rfl rfl hd1 hd2
  · exact lineIs_of_DD (op := 0x1A) rfl rfl hd1 hd2
  · exact lineIs_of_D (op := 0x1B) rfl rfl hd
  · exact lineIs_of_D (op := 0x1C) rfl rfl hd

end Sys2Proof.Machine
end

section
/-! PROOFS. The packed sequence (40_packed_sequence.md): what each SEQ command answers and leaves unchanged, what an
insert does to the elements (R102, R112), and the laws of runs of commands: round trip (R104), storage size (R109) and
the boundary values (R111).

An insert is one fact about elements, `State.appendElem_elems`; the laws of inserted lists follow from it by one
induction over the values, `performAll_inserts`. -/

namespace Sys2Proof.Machine

/-! ### The numbers a command answers -/

theorem zext64_eq_ofNat {n : Nat} (v : BitVec n) : zext64 v = BitVec.ofNat 64 v.toNat := (BitVec.ofNat_toNat 64 v).symm

/-- A number below `2^64` is read back from the DATA word that carries it. -/
theorem toNat_ofNat64 {n : Nat} (h : n < 2 ^ 64) : (BitVec.ofNat 64 n).toNat = n := Nat.mod_eq_of_lt h

/-- COUNT fits a DATA word (R7, R23). -/
theorem State.Inv.count_lt {s : State} (hs : s.Inv) : s.count < 2 ^ 64 := by
  obtain ⟨-, ⟨-, hmax⟩, -⟩ := (Params.wellFormed_iff _).1 hs.paramsLegal
  exact hs.countBound.trans_lt hmax

/-! ### The commands that read one number (R105 to R107) -/

theorem completesWith_seqSize {s : State} (hs : s.Inv) : CompletesWith .seqSize s (BitVec.ofNat 64 s.count) :=
  completesWith_of_respond <| by rw [exec_seqSize, zext64Nat_of_lt hs.count_lt]

theorem completesWith_seqByteLen (s : State) : CompletesWith .seqByteLen s (zext64Nat s.buf.len) :=
  completesWith_of_respond (exec_seqByteLen s)

/-- Settles O30: COUNT fits the DATA word, so it is the answer's number. -/
theorem seqSizeReadsCount : Obligations.SeqSizeReadsCount := by
  refine ⟨fun data => decode_cmdS (op := 0x03) (f := fun _ => .seqSize) data rfl, fun s hs => ?answer⟩
  case answer =>
    exact ⟨_, completesWith_seqSize hs, toNat_ofNat64 hs.count_lt⟩

/-- Settles O31: W is at most 64, so it is the answer's number. -/
theorem seqWidthReadsW : Obligations.SeqWidthReadsW := by
  refine ⟨fun data => decode_cmdS (op := 0x04) (f := fun _ => .seqWidth) data rfl, fun s hs => ?answer⟩
  case answer =>
    obtain ⟨hW1, hW64⟩ := hs.widthBounds
    have hvalue : (BitVec.ofNat 64 s.W).toNat = s.W := toNat_ofNat64 (by omega)
    refine ⟨_, completesWith_of_respond ?exec, hvalue, by omega, by omega⟩
    case exec => rw [exec_seqWidth, zext64_params_width, State.W]

/-- Settles O32: below `2^64` the zero extension is the length itself; under the invariant the length is exact (R24). -/
theorem seqByteLenReadsTheLength : Obligations.SeqByteLenReadsTheLength := by
  refine ⟨fun data => decode_cmdS (op := 0x05) (f := fun _ => .seqByteLen) data rfl, fun s =>
    ⟨_, completesWith_seqByteLen s, fun hlen => ?value, fun hs => hs.lengthExact⟩⟩
  case value =>
    rw [zext64Nat_of_lt hlen]
    exact toNat_ofNat64 hlen

/-! ### SEQ_RETRIEVE and SEQ_BYTE_READ (R103, R108) -/

/-- Under the invariant every element held is retrieved: its bytes exist. -/
theorem State.Inv.completesWith_seqRetrieve {s : State} (hs : s.Inv) {idx : DataWord} (h : idx.toNat < s.count) :
    CompletesWith (.seqRetrieve idx) s (s.elem idx.toNat) :=
  completesWith_of_respond <| by rw [exec_seqRetrieve_of_lt h, if_pos (hs.elemPresent h)]

theorem failsWith_seqRetrieve {s : State} {idx : DataWord} (h : s.count ≤ idx.toNat) :
    FailsWith (.seqRetrieve idx) s 1 :=
  failsWith_of_raise (e := .rangeError) (exec_seqRetrieve_of_le h)

/-- Settles O28: the answer is the element, whose bits stand where `valuePos` puts them. -/
theorem seqRetrieveReadsTheElement : Obligations.SeqRetrieveReadsTheElement := by
  intro s idx hs
  refine ⟨decodeOfEncode (.seqRetrieve idx), fun hlt => ⟨_, hs.completesWith_seqRetrieve hlt, fun q => ?bits⟩,
    failsWith_seqRetrieve⟩
  case bits =>
    rw [State.elem_getLsbD hs.widthBounds.2]
    cases s.params.bitOrder <;> rfl

/-- SEQ_BYTE_READ within BUF (R108). -/
theorem exec_seqByteRead_of_lt {s : State} {j : DataWord} (h : j.toNat < s.buf.len) :
    exec (.seqByteRead j) s = .next (s.respond (zext64 (s.buf.read j.toNat))) := by
  have hstatus : s.byteReadStatus j = .ok := if_neg (Nat.not_le.2 h)
  simp [exec, execSeqByteRead, hstatus]

/-- Settles O33: the two sides of the check on the byte index. -/
theorem seqByteReadReadsTheByte : Obligations.SeqByteReadReadsTheByte := by
  intro s j
  refine ⟨decodeOfEncode (.seqByteRead j), fun hlt => ?inside, fun hge => ?outside⟩
  case inside =>
    exact completesWith_of_respond <| by rw [exec_seqByteRead_of_lt hlt, zext64_eq_ofNat]
  case outside => exact failsWith_of_raise (e := .rangeError) (exec_seqByteRead_of_le hge)

/-! ### SEQ_INSERT (R101) -/

theorem State.insertStatus_of_wide {s : State} {v : DataWord} (h : 2 ^ s.W ≤ v.toNat) :
    s.insertStatus v = .capacityError :=
  if_pos h

theorem State.insertStatus_of_full {s : State} {v : DataWord} (hv : v.toNat < 2 ^ s.W)
    (h : s.count = s.params.maxCount) : s.insertStatus v = .storageExhausted :=
  (if_neg (Nat.not_le.2 hv)).trans (if_pos h)

theorem failsWith_seqInsert {s : State} {v : DataWord} {e : Status} (h : s.insertStatus v = e) (he : e ≠ .ok) :
    FailsWith (.seqInsert v) s e.code :=
  failsWith_of_raise <| by rw [exec_seqInsert_of_ne_ok (h ▸ he), h]

/-- A successful insert answers OK and RESULT 0, and leaves all but COUNT, BUF and the port as it is. -/
theorem State.appendElem_respond_frame (s : State) (v : DataWord) :
    Answered ((s.appendElem v).respond 0) 0 0 ∧ SameButSeqAndPort s ((s.appendElem v).respond 0) :=
  ⟨⟨rfl, rfl⟩, rfl, rfl, rfl, rfl, rfl⟩

/-- Settles O25: the checks in their order (R182), then the length and the bits of the append. -/
theorem seqInsertAppendsOrFails : Obligations.SeqInsertAppendsOrFails := by
  intro s v hwf
  refine ⟨decodeOfEncode (.seqInsert v), fun hwide => ?wide, fun hv hfull => ?full, fun hv hroom => ?appended⟩
  case wide => exact failsWith_seqInsert (e := .capacityError) (State.insertStatus_of_wide hwide) (by decide)
  case full => exact failsWith_seqInsert (e := .storageExhausted) (State.insertStatus_of_full hv hfull) (by decide)
  case appended =>
    obtain ⟨hanswered, hframe⟩ := s.appendElem_respond_frame v
    refine ⟨_, exec_seqInsert_of_ok (State.insertStatus_eq_ok_iff.2 ⟨hv, hroom⟩), hanswered, hframe, rfl,
      Memory.appendElem_len _ _ _ _ _, fun b => ?bits⟩
    case bits =>
      rw [Nat.succ_mul]
      refine (State.appendElem_bit hwf v b).trans ?_
      cases s.params.bitOrder <;> rfl

/-! ### What an insert does to the elements (R102, R112) -/

/-- An element is a function of the W bits at its own offsets. -/
theorem State.elem_congr {s t : State} (hp : t.params = s.params) (hW : s.W ≤ 64) {i : Nat}
    (h : ∀ b, i * s.W ≤ b → b < i * s.W + s.W → t.bit b = s.bit b) : t.elem i = s.elem i := by
  have htW : t.W = s.W := congrArg Params.W hp
  refine BitVec.eq_of_getLsbD_eq fun q _ => ?_
  rw [State.elem_getLsbD (htW ▸ hW), State.elem_getLsbD hW, htW, hp]
  by_cases hq : q < s.W
  · have hpos := valuePos_lt s.params.bitOrder hq
    rw [h _ (by omega) (by omega)]
  · rw [decide_eq_false hq, Bool.false_and, Bool.false_and]

@[simp] theorem State.respond_elem (s : State) (r : DataWord) (i : Nat) : (s.respond r).elem i = s.elem i := rfl

@[simp] theorem State.respond_elems (s : State) (r : DataWord) : (s.respond r).elems = s.elems := rfl

@[simp] theorem State.resetOf_W (p : Params) : (State.resetOf p).W = p.W := rfl

@[simp] theorem State.resetOf_elems (p : Params) : (State.resetOf p).elems = [] := rfl

/-- Outside the new element's offsets an insert, successful or not, changes no bit. -/
theorem exec_seqInsert_bit {s t : State} {v : DataWord} (hwf : s.buf.wf = true) (h : exec (.seqInsert v) s = .next t)
    {b : Nat} (hb : b < s.count * s.W ∨ (s.count + 1) * s.W ≤ b) : t.bit b = s.bit b := by
  rcases exec_seqInsert_cases h with ⟨-, rfl⟩ | ⟨-, rfl⟩
  case inl =>
    rw [Nat.succ_mul] at hb
    exact (State.appendElem_bit hwf v b).trans (if_neg (by omega))
  case inr => rfl

/-- Settles O36: an element is read from its own bits, and an insert writes only those of the new one. -/
theorem neighboursAreIndependent : Obligations.NeighboursAreIndependent :=
  ⟨fun _ _ _ hp hW hbits => (State.elem_congr hp.symm hW fun b hge hlt => (hbits b hge hlt).symm).symm,
    fun _ _ _ hwf h _ hb => exec_seqInsert_bit hwf h hb⟩

/-- The element an insert appends is the value, where that fits W bits. -/
theorem State.appendElem_elem_self {s : State} (hwf : s.buf.wf = true) (hW : s.W ≤ 64) {v : DataWord}
    (hv : v.toNat < 2 ^ s.W) : (s.appendElem v).elem s.count = v := by
  refine BitVec.eq_of_getLsbD_eq fun q _ => ?_
  rw [State.elem_getLsbD (s := s.appendElem v) hW, State.appendElem_W, State.appendElem_params,
    State.appendElem_bit hwf]
  by_cases hq : q < s.W
  · have hpos := valuePos_lt s.params.bitOrder hq
    rw [if_pos (by omega), Nat.add_sub_cancel_left, valueBit_eq_getLsbD, valuePos_valuePos _ hq, decide_eq_true hq,
      Bool.true_and]
  · rw [decide_eq_false hq, Bool.false_and]
    exact (Nat.testBit_lt_two_pow (hv.trans_le (Nat.pow_le_pow_right (by decide) (Nat.not_lt.1 hq)))).symm

/-- The elements before the appended one keep their values. -/
theorem State.appendElem_elem_of_lt {s : State} (hwf : s.buf.wf = true) (hW : s.W ≤ 64) (v : DataWord) {i : Nat}
    (hi : i < s.count) : (s.appendElem v).elem i = s.elem i := by
  refine State.elem_congr (s.appendElem_params v) hW fun b _ hlt => ?_
  have hend : (i + 1) * s.W ≤ s.count * s.W := Nat.mul_le_mul_right _ hi
  rw [Nat.succ_mul] at hend
  exact (State.appendElem_bit hwf v b).trans (if_neg (by omega))

/-- A successful insert appends its value to the elements and does nothing else to them (R102). -/
theorem State.appendElem_elems {s : State} (hwf : s.buf.wf = true) (hW : s.W ≤ 64) {v : DataWord}
    (hv : v.toNat < 2 ^ s.W) : (s.appendElem v).elems = s.elems ++ [v] := by
  rw [State.elems, State.appendElem_count, List.range_succ, List.map_append, List.map_singleton,
    State.appendElem_elem_self hwf hW hv]
  congr 1
  exact List.map_congr_left fun i hi => State.appendElem_elem_of_lt hwf hW v (List.mem_range.1 hi)

/-- Settles O26: an answer OK is the append, whose end state meets the invariant; any other answer changes no state. -/
theorem seqInsertGuarantees : Obligations.SeqInsertGuarantees := by
  intro s t v r hs h hr
  have ht := exec_inv hs h
  have hW64 := hs.widthBounds.2
  rcases exec_seqInsert_cases h with ⟨hok, rfl⟩ | ⟨hne, rfl⟩
  case inl =>
    cases hr
    have hv := (State.insertStatus_eq_ok_iff.1 hok).1
    refine ⟨fun _ => ⟨rfl, ht.lengthExact, ?new, fun i hi => ?old, fun b hb _ => ht.bit_of_le hb⟩,
      fun hbad => absurd rfl hbad⟩
    case new => exact State.appendElem_elem_self hs.bufCanonical hW64 hv
    case old => exact State.appendElem_elem_of_lt hs.bufCanonical hW64 v hi
  case inr =>
    cases hr
    exact ⟨fun hcode => absurd ((Status.code_eq_zero_iff _).1 hcode) hne, fun _ => ⟨rfl, rfl, fun _ => rfl⟩⟩

/-! ### Runs of commands (R104, R109, R111) -/

theorem performAll_cons_of_next {i : Instr} {is : List Instr} {s t : State} (h : exec i s = .next t) :
    performAll (i :: is) s = performAll is t := by
  simp [performAll, h]

/-- What every command keeps holds after every run of commands. -/
theorem performAll_induction {P : State → Prop} (hstep : ∀ {i s t}, P s → exec i s = .next t → P t)
    {is : List Instr} {s t : State} (hs : P s) (h : performAll is s = some t) : P t := by
  induction is generalizing s with
  | nil => cases h; exact hs
  | cons i is ih =>
    rw [performAll] at h
    split at h
    case h_1 u hu => exact ih (hstep hs hu) h
    case h_2 => cases h
    case h_3 => cases h

/-- Inserts that fit all succeed, and append their values in order. -/
theorem performAll_inserts {s : State} {vs : List DataWord} (hs : s.Inv) (hvs : ∀ v ∈ vs, v.toNat < 2 ^ s.W)
    (hroom : s.count + vs.length ≤ s.params.maxCount) :
    ∃ t, performAll (vs.map Instr.seqInsert) s = some t ∧ t.Inv ∧ t.elems = s.elems ++ vs := by
  induction vs generalizing s with
  | nil => exact ⟨s, rfl, hs, (List.append_nil _).symm⟩
  | cons v vs ih =>
    obtain ⟨hv, hrest⟩ := List.forall_mem_cons.1 hvs
    rw [List.length_cons] at hroom
    have hexec := exec_seqInsert_of_ok (State.insertStatus_eq_ok_iff.2 ⟨hv, by omega⟩)
    have hcount : s.count + 1 + vs.length ≤ s.params.maxCount := by omega
    obtain ⟨t, hrun, ht, helems⟩ := ih (exec_inv hs hexec) hrest hcount
    refine ⟨t, (performAll_cons_of_next hexec).trans hrun, ht, ?elems⟩
    case elems =>
      rw [helems, State.respond_elems, State.appendElem_elems hs.bufCanonical hs.widthBounds.2 hv, List.append_assoc,
        List.singleton_append]

/-- Settles O38: the run of the inserts, without its invariant. -/
theorem insertsAppendInOrder : Obligations.InsertsAppendInOrder := by
  intro s vs hs hvs hroom
  obtain ⟨t, hrun, -, helems⟩ := performAll_inserts hs hvs hroom
  exact ⟨t, hrun, helems⟩

/-- Under the invariant a SEQ_RETRIEVE answers the entry of the list of elements at its index. -/
theorem State.Inv.completesWith_seqRetrieve_of_elems {s : State} (hs : s.Inv) {i : Nat} {v : DataWord}
    (h : s.elems[i]? = some v) : CompletesWith (.seqRetrieve (BitVec.ofNat 64 i)) s v := by
  have hi : i < s.count := by
    rw [← s.elems_length]
    exact (List.getElem?_eq_some_iff.1 h).1
  have hidx : (BitVec.ofNat 64 i).toNat = i := toNat_ofNat64 (hi.trans hs.count_lt)
  have helem : s.elem i = v := by
    simpa [State.elems, List.getElem?_range hi] using h
  have hanswer := hs.completesWith_seqRetrieve (idx := BitVec.ofNat 64 i) (hidx.symm ▸ hi)
  rwa [hidx, helem] at hanswer

/-- Settles O37: after the inserts the elements are the list, and the invariant makes every answer its entry. -/
theorem roundTrip : Obligations.RoundTrip := by
  intro p vs hp hvs hlen
  obtain ⟨t, hrun, ht, helems⟩ := performAll_inserts (State.resetOf_inv hp) hvs (by simpa using hlen)
  rw [State.resetOf_elems, List.nil_append] at helems
  have hcount : t.count = vs.length := by rw [← helems, State.elems_length]
  refine ⟨t, hrun, fun i v hiv => ?retrieve, ?past, ?size⟩
  case retrieve => exact ht.completesWith_seqRetrieve_of_elems (helems.symm ▸ hiv)
  case past =>
    rw [← hcount]
    exact failsWith_seqRetrieve (toNat_ofNat64 ht.count_lt).ge
  case size =>
    rw [← hcount]
    exact completesWith_seqSize ht

/-- Settles O39: every command keeps the invariant, and R24 is part of it. -/
theorem storageSizeLaw : Obligations.StorageSizeLaw := by
  intro p is t hp hrun
  have hlength : t.buf.len = (t.count * t.W + 7) / 8 :=
    (performAll_induction exec_inv (State.resetOf_inv hp) hrun).lengthExact
  refine ⟨hlength, fun hlt => ?answer⟩
  case answer =>
    rw [← hlength, ← zext64Nat_of_lt hlt]
    exact completesWith_seqByteLen t

/-- Settles O40: both boundary values fit W bits, and the fresh block has room. -/
theorem boundaryValuesRoundTrip : Obligations.BoundaryValuesRoundTrip := by
  intro p v hp hboundary
  have hs := State.resetOf_inv hp
  have hv : v.toNat < 2 ^ (State.resetOf p).W := by
    have hpos := Nat.two_pow_pos p.W
    rw [State.resetOf_W]
    omega
  have hroom : (State.resetOf p).count ≠ p.maxCount := by
    obtain ⟨-, ⟨hmax, -⟩, -⟩ := (Params.wellFormed_iff p).1 hp
    rw [State.resetOf_count]
    omega
  have hexec := exec_seqInsert_of_ok (State.insertStatus_eq_ok_iff.2 ⟨hv, hroom⟩)
  refine ⟨_, hexec, (State.appendElem_respond_frame _ v).1, ?retrieve⟩
  case retrieve =>
    refine (exec_inv hs hexec).completesWith_seqRetrieve_of_elems (i := 0) ?_
    rw [State.respond_elems, State.appendElem_elems hs.bufCanonical hs.widthBounds.2 hv]
    rfl

end Sys2Proof.Machine
end

section
/-! PROOFS. The maneuver descriptor (41_maneuver_descriptor.md): what each MD command's word is and what it answers
(R143 to R151, R153 to R156), that all thirteen are pure (R140), and the laws of equality (R157), of the four tables
(R158) and of the two sentinels (R159).

Every MD command answers without touching SEQ, so each proof is about the answer's number; the tables are spoken of
through `lookup_ordinal` and `lookup_eq_code`. -/

namespace Sys2Proof.Machine

/-! ### The words of the commands, and what they answer -/

/-- The encoder's word of a command that ignores DATA is that command whatever DATA is (R63). -/
theorem wordIs_of_encode {i : Instr} {n : Nat} (hreads : i.readsData = false) (hcmd : (encode i).cmd.toNat = n) :
    WordIs n i := by
  intro data
  rw [← hcmd, BitVec.ofNat_toNat, BitVec.setWidth_eq]
  exact decode_congr_data (decodeOfEncode i) hreads data

/-- A command has one answer. -/
theorem CompletesWith.unique {i : Instr} {s : State} {r r' : DataWord} (h : CompletesWith i s r)
    (h' : CompletesWith i s r') : r = r' := by
  obtain ⟨t, hexec, ⟨-, hresp⟩, -⟩ := h
  obtain ⟨t', hexec', ⟨-, hresp'⟩, -⟩ := h'
  rw [hexec] at hexec'
  cases hexec'
  rw [hresp] at hresp'
  cases hresp'
  rfl

/-- A command that answers a descriptor, as a number (R64). -/
theorem completesWith_of_respondDesc {i : Instr} {s : State} {t : TypeField} {m : ModField}
    (h : exec i s = .next (s.respondDesc t m)) : CompletesWith i s (BitVec.ofNat 64 (m.toNat * 32 + t.toNat)) := by
  rw [← desc_toNat, ← zext64_eq_ofNat]
  exact completesWith_of_respond h

/-- A descriptor with modifier U-turn is its type's number: U-turn is code 0 (R33). -/
theorem completesWith_of_uTurn {i : Instr} {s : State} {t : TypeField}
    (h : exec i s = .next (s.respondDesc t DirectionModifier.uTurn.code)) :
    CompletesWith i s (BitVec.ofNat 64 t.toNat) := by
  have hanswer := completesWith_of_respondDesc h
  rwa [show DirectionModifier.uTurn.code.toNat = 0 from rfl, Nat.zero_mul, Nat.zero_add] at hanswer

/-! ### Equality of descriptors (R153) -/

/-- Both fields match exactly when the bytes do: a byte is the descriptor of its fields (R65). -/
theorem fields_eq_iff (d1 d2 : Byte) : typeOf d1 = typeOf d2 ∧ modOf d1 = modOf d2 ↔ d1 = d2 := by
  constructor
  · rintro ⟨htype, hmod⟩
    rw [← descriptorFields.2 d1, htype, hmod, descriptorFields.2]
  · rintro rfl
    exact ⟨rfl, rfl⟩

theorem descEq_eq (d1 d2 : Byte) : descEq d1 d2 = if d1 = d2 then 1 else 0 :=
  if_congr (fields_eq_iff d1 d2) rfl rfl

theorem one_sub_descEq (d1 d2 : Byte) : 1 - descEq d1 d2 = if d1 = d2 then 0 else 1 := by
  rw [descEq_eq]
  split <;> rfl

theorem completesWith_mdEq (s : State) (d1 d2 : Byte) : CompletesWith (.mdEq d1 d2) s (if d1 = d2 then 1 else 0) := by
  rw [← descEq_eq]
  exact completesWith_of_respond rfl

theorem completesWith_mdNe (s : State) (d1 d2 : Byte) : CompletesWith (.mdNe d1 d2) s (if d1 = d2 then 0 else 1) := by
  rw [← one_sub_descEq]
  exact completesWith_of_respond rfl

theorem completesWith_mdEq_one_iff {s : State} {d1 d2 : Byte} : CompletesWith (.mdEq d1 d2) s 1 ↔ d1 = d2 := by
  have hanswer := completesWith_mdEq s d1 d2
  constructor
  · intro hone
    by_contra hne
    rw [if_neg hne] at hanswer
    exact absurd (hanswer.unique hone) (by decide)
  · intro heq
    rwa [if_pos heq] at hanswer

/-! ### The four tables (R141, R142) -/

/-- The table and the kind whose entry a type is, if it is one: the tables of R141 read backwards. -/
def placeOfType : ManeuverType → Option (RoadTable × RoadKind)
  | .enterRoundabout => some (.enter, .roundabout)
  | .enterRotary => some (.enter, .rotary)
  | .enterRoundaboutIntersection => some (.enter, .roundaboutIntersection)
  | .exitRoundabout => some (.exit, .roundabout)
  | .exitRotary => some (.exit, .rotary)
  | .exitRoundaboutIntersection => some (.exit, .roundaboutIntersection)
  | .enterAndExitRoundabout => some (.enterAndExit, .roundabout)
  | .enterAndExitRotary => some (.enterAndExit, .rotary)
  | .enterAndExitRoundaboutIntersection => some (.enterAndExit, .roundaboutIntersection)
  | .enterRoundaboutAtExit => some (.enterAtExit, .roundabout)
  | .enterRotaryAtExit => some (.enterAtExit, .rotary)
  | .enterRoundaboutIntersectionAtExit => some (.enterAtExit, .roundaboutIntersection)
  | _ => none

theorem placeOfType_tableEntry (x : RoadTable) {kind : RoadKind} (h : kind ≠ .invalid) :
    placeOfType (tableEntry x kind) = some (x, kind) := by
  cases kind with
  | invalid => exact absurd rfl h
  | roundabout | rotary | roundaboutIntersection => cases x <;> rfl

theorem tableEntry_invalid (x : RoadTable) : tableEntry x .invalid = .invalid := by cases x <;> rfl

theorem tableEntry_ne_invalid (x : RoadTable) {kind : RoadKind} (h : kind ≠ .invalid) :
    tableEntry x kind ≠ .invalid := by
  intro hentry
  have hplace := placeOfType_tableEntry x h
  rw [hentry] at hplace
  cases hplace

/-- No two of the twelve entries of the named kinds are one type. -/
theorem tableEntry_inj {x x' : RoadTable} {kind kind' : RoadKind} (h : kind ≠ .invalid) (h' : kind' ≠ .invalid)
    (heq : tableEntry x kind = tableEntry x' kind') : x = x' ∧ kind = kind' := by
  have hplace := placeOfType_tableEntry x h
  rw [heq, placeOfType_tableEntry x' h'] at hplace
  cases hplace
  exact ⟨rfl, rfl⟩

theorem lookup_ordinal (tc : TypeCodes) (x : RoadTable) (kind : RoadKind) :
    lookup tc x kind.ordinal = tc.code (tableEntry x kind) := by
  cases kind <;> rfl

/-- The ordinals 1 to 3 are those of the kinds other than Invalid (R34). -/
theorem exists_ordinal_eq {k : KindOrdinal} (h1 : 1 ≤ k.toNat) (h3 : k.toNat ≤ 3) :
    ∃ kind : RoadKind, kind ≠ .invalid ∧ k = kind.ordinal := by
  obtain hk | hk | hk : k.toNat = 1 ∨ k.toNat = 2 ∨ k.toNat = 3 := by omega
  · exact ⟨.roundabout, by decide, BitVec.eq_of_toNat_eq hk⟩
  · exact ⟨.rotary, by decide, BitVec.eq_of_toNat_eq hk⟩
  · exact ⟨.roundaboutIntersection, by decide, BitVec.eq_of_toNat_eq hk⟩

/-- The name a table has for an ordinal: its entry at 1 to 3, and Invalid at 0 and out of range (R142). -/
def entryOfOrdinal (x : RoadTable) (k : KindOrdinal) : ManeuverType :=
  if k.toNat = 1 then tableEntry x .roundabout
  else if k.toNat = 2 then tableEntry x .rotary
  else if k.toNat = 3 then tableEntry x .roundaboutIntersection
  else .invalid

theorem lookup_eq_code (tc : TypeCodes) (x : RoadTable) (k : KindOrdinal) :
    lookup tc x k = tc.code (entryOfOrdinal x k) := by
  unfold lookup kindOfOrdinal entryOfOrdinal
  match k.toNat with
  | 0 => exact congrArg tc.code (tableEntry_invalid x)
  | 1 | 2 | 3 | n + 4 => rfl

/-- A table command answers its own table's entry with its modifier. -/
theorem completesWith_of_lookup {i : Instr} {s : State} (x : RoadTable) {k : KindOrdinal} {m : ModField}
    (h : exec i s = .next (s.respondDesc (s.lookup x k) m)) :
    CompletesWith i s
      (BitVec.ofNat 64 (m.toNat * 32 + (s.params.typeCodes.code (entryOfOrdinal x k)).toNat)) := by
  rw [← lookup_eq_code]
  exact completesWith_of_respondDesc h

/-! ### Every command is pure (R140) -/

/-- A descriptor, or a field of one, is below 256 when zero-extended (R66). -/
theorem zext64_toNat_lt {n : Nat} (v : BitVec n) (hn : n ≤ 8) : (zext64 v).toNat < 256 := by
  rw [zext64, BitVec.toNat_setWidth_of_le (hn.trans (by decide))]
  exact v.isLt.trans_le (Nat.pow_le_pow_right (by decide) hn)

/-- Under one TypeCode an MD command answers one number, below 256, in every state. -/
theorem exec_eq_respond_of_isMd {i : Instr} (hi : IsMd i = true) (tc : TypeCodes) :
    ∃ r : DataWord, r.toNat < 256 ∧ ∀ s : State, s.params.typeCodes = tc → exec i s = .next (s.respond r) := by
  have hdesc {i : Instr} (t : TypeField) (m : ModField)
      (h : ∀ s : State, s.params.typeCodes = tc → exec i s = .next (s.respondDesc t m)) :
      ∃ r : DataWord, r.toNat < 256 ∧ ∀ s : State, s.params.typeCodes = tc → exec i s = .next (s.respond r) :=
    ⟨zext64 (desc t m), zext64_toNat_lt _ le_rfl, h⟩
  cases i with
  | mdInvalid => exact hdesc (tc.code .invalid) DirectionModifier.uTurn.code (by rintro s rfl; rfl)
  | mdNoTurn => exact hdesc (tc.code .noTurn) DirectionModifier.uTurn.code (by rintro s rfl; rfl)
  | mdMake t m => exact hdesc t m fun _ _ => rfl
  | mdRemain _ m => exact hdesc (tc.code .stayOnRoundabout) m (by rintro s rfl; rfl)
  | mdEnter k m => exact hdesc (lookup tc .enter k) m (by rintro s rfl; rfl)
  | mdExit k m => exact hdesc (lookup tc .exit k) m (by rintro s rfl; rfl)
  | mdEnterAndExit k m => exact hdesc (lookup tc .enterAndExit k) m (by rintro s rfl; rfl)
  | mdEnterAtExit k m => exact hdesc (lookup tc .enterAtExit k) m (by rintro s rfl; rfl)
  | mdSuppressed m => exact hdesc (tc.code .suppressed) m (by rintro s rfl; rfl)
  | mdEq d1 d2 =>
    refine ⟨descEq d1 d2, ?_, fun _ _ => rfl⟩
    rw [descEq_eq]
    split <;> decide
  | mdNe d1 d2 =>
    refine ⟨1 - descEq d1 d2, ?_, fun _ _ => rfl⟩
    rw [one_sub_descEq]
    split <;> decide
  | mdGetType d => exact ⟨zext64 (typeOf d), zext64_toNat_lt _ (by decide), fun _ _ => rfl⟩
  | mdGetModifier d => exact ⟨zext64 (modOf d), zext64_toNat_lt _ (by decide), fun _ _ => rfl⟩
  | _ => cases hi

/-- Settles O46: the answer is one number for the two states' TypeCode. -/
theorem mdCommandsArePure : Obligations.MdCommandsArePure := by
  intro i s s' hi htc
  obtain ⟨r, hbyte, hexec⟩ := exec_eq_respond_of_isMd hi s.params.typeCodes
  exact ⟨r, completesWith_of_respond (hexec s rfl), completesWith_of_respond (hexec s' htc.symm), hbyte⟩

/-! ### The commands that make a descriptor (R143 to R151) -/

theorem completesWith_mdInvalid (s : State) :
    CompletesWith .mdInvalid s (BitVec.ofNat 64 (s.params.typeCodes.code .invalid).toNat) :=
  completesWith_of_uTurn rfl

theorem completesWith_mdNoTurn (s : State) :
    CompletesWith .mdNoTurn s (BitVec.ofNat 64 (s.params.typeCodes.code .noTurn).toNat) :=
  completesWith_of_uTurn rfl

/-- Settles O47: both words are only their opcode. -/
theorem mdInvalidAndNoTurn : Obligations.MdInvalidAndNoTurn :=
  ⟨wordIs_of_encode rfl rfl, wordIs_of_encode rfl rfl, fun s =>
    ⟨completesWith_mdInvalid s, completesWith_mdNoTurn s⟩⟩

/-- Settles O48: MD_MAKE of the Invalid type and modifier 0 and MD_INVALID are one meaning. -/
theorem mdMakePairsTypeAndModifier : Obligations.MdMakePairsTypeAndModifier :=
  fun _ t m => ⟨wordIs_of_encode rfl (cmdTM_toNat 0x12 t m), completesWith_of_respondDesc rfl, fun _ => Iff.rfl⟩

/-- Settles O49: the kind is in the word and not in the answer. -/
theorem mdRemainIgnoresTheKind : Obligations.MdRemainIgnoresTheKind :=
  fun _ k m => ⟨wordIs_of_encode rfl (cmdKM_toNat 0x13 k m), completesWith_of_respondDesc rfl⟩

/-- Settles O50: the four answers are one lookup, in the four tables. -/
theorem tableCommandsLookUpTheirTable : Obligations.TableCommandsLookUpTheirTable := by
  intro s k m answer
  refine ⟨⟨?_, ?_, ?_, ?_⟩, completesWith_of_lookup .enter rfl, completesWith_of_lookup .exit rfl,
    completesWith_of_lookup .enterAndExit rfl, completesWith_of_lookup .enterAtExit rfl⟩
  · exact wordIs_of_encode rfl (cmdKM_toNat 0x14 k m)
  · exact wordIs_of_encode rfl (cmdKM_toNat 0x15 k m)
  · exact wordIs_of_encode rfl (cmdKM_toNat 0x16 k m)
  · exact wordIs_of_encode rfl (cmdKM_toNat 0x17 k m)

/-- Settles O51: the word is of format M, and the answer is a descriptor. -/
theorem mdSuppressedKeepsTheModifier : Obligations.MdSuppressedKeepsTheModifier :=
  fun _ m => ⟨wordIs_of_encode rfl (cmdM_toNat 0x18 m), completesWith_of_respondDesc rfl⟩

/-! ### The commands that read descriptors (R153 to R156) -/

/-- Settles O52: comparing the fields is comparing the bytes, and MD_NE's answer is 1 minus MD_EQ's. -/
theorem mdEqAndNeCompareDescriptors : Obligations.MdEqAndNeCompareDescriptors :=
  fun s d1 d2 => ⟨wordIs_of_encode rfl (cmdDD_toNat 0x19 d1 d2), wordIs_of_encode rfl (cmdDD_toNat 0x1A d1 d2),
    completesWith_mdEq s d1 d2, completesWith_mdNe s d1 d2⟩

/-- Settles O53: a byte is below 256, so the quotient by 32 needs no cut to 3 bits. -/
theorem mdGetFields : Obligations.MdGetFields := by
  intro s d
  refine ⟨wordIs_of_encode rfl (cmdD_toNat 0x1B d), wordIs_of_encode rfl (cmdD_toNat 0x1C d), ?type, ?modifier⟩
  case type =>
    rw [← typeOf_toNat, ← zext64_eq_ofNat]
    exact completesWith_of_respond rfl
  case modifier =>
    have hmod : (modOf d).toNat = d.toNat / 32 := (modOf_toNat d).trans (Nat.mod_eq_of_lt (by omega))
    rw [← hmod, ← zext64_eq_ofNat]
    exact completesWith_of_respond rfl

/-! ### Laws (R157 to R159) -/

/-- Settles O54: answering 1 is equality of bytes, and a byte determines its fields. -/
theorem mdEqIsAnEquivalence : Obligations.MdEqIsAnEquivalence := by
  intro s
  refine ⟨fun d => completesWith_mdEq_one_iff.2 rfl, fun d1 d2 h12 => ?symmetric, fun d1 d2 d3 h12 h23 => ?transitive,
    fun d1 d2 hfield => ?differ⟩
  case symmetric => exact completesWith_mdEq_one_iff.2 (completesWith_mdEq_one_iff.1 h12).symm
  case transitive =>
    exact completesWith_mdEq_one_iff.2
      ((completesWith_mdEq_one_iff.1 h12).trans (completesWith_mdEq_one_iff.1 h23))
  case differ =>
    have hne : d1 ≠ d2 := by
      rwa [Ne, ← fields_eq_iff, not_and_or]
    simpa only [if_neg hne] using completesWith_mdEq s d1 d2

/-- Settles O55: the twelve entries are different names, and an injective TypeCode gives those different codes. -/
theorem roundaboutTypesAreDistinct : Obligations.RoundaboutTypesAreDistinct := by
  intro tc htc
  have hinj := tc.injective_iff.1 htc
  refine ⟨fun x x' k k' h1 h3 h1' h3' heq => ?distinct, fun x k h1 h3 heq => ?notInvalid, fun x => ?kindZero⟩
  case distinct =>
    obtain ⟨kind, hkind, rfl⟩ := exists_ordinal_eq h1 h3
    obtain ⟨kind', hkind', rfl⟩ := exists_ordinal_eq h1' h3'
    rw [lookup_ordinal, lookup_ordinal] at heq
    obtain ⟨rfl, rfl⟩ := tableEntry_inj hkind hkind' (hinj heq)
    exact ⟨rfl, rfl⟩
  case notInvalid =>
    obtain ⟨kind, hkind, rfl⟩ := exists_ordinal_eq h1 h3
    rw [lookup_ordinal] at heq
    exact tableEntry_ne_invalid x hkind (hinj heq)
  case kindZero => exact (lookup_ordinal tc x .invalid).trans (congrArg tc.code (tableEntry_invalid x))

/-- Settles O56: equal answers would be equal codes of two names. -/
theorem invalidIsNotNoTurn : Obligations.InvalidIsNotNoTurn := by
  rintro s r r' htc hinvalid hnoTurn rfl
  have hcodes := ((completesWith_mdInvalid s).unique hinvalid).trans ((completesWith_mdNoTurn s).unique hnoTurn).symm
  have hnat := congrArg BitVec.toNat hcodes
  rw [toNat_ofNat64 (by omega), toNat_ofNat64 (by omega)] at hnat
  cases (TypeCodes.injective_iff _).1 htc (BitVec.eq_of_toNat_eq hnat)

end Sys2Proof.Machine
end

section
/-! PROOFS. The errors (60_exceptions.md): what a step that reports one leaves unchanged (R183), that the next request
is performed as if it had not happened (R186), and which cause gives which STATUS (R180).

An error is `State.raise` and nothing else, `perform_eq_raise`; and no request looks at the port's two words,
`State.perform_port`. The STATUS of every command is one function of the state, `State.statusOf`. -/

namespace Sys2Proof.Machine

/-! ### A reported error is a raise (R183) -/

/-- A command that reports an error has only raised it. -/
theorem exec_eq_raise {i : Instr} {s t : State} {r : Response} (h : exec i s = .next t) (hr : t.response = some r)
    (hne : r.status ≠ 0) : ∃ e, t = s.raise e ∧ r = ⟨e.code, 0⟩ := by
  rcases exec_cases h with ⟨v, -, -, rfl⟩ | ⟨e, result, rfl, rfl | rfl⟩
  · cases hr
    exact absurd rfl hne
  · cases hr
    exact absurd rfl hne
  · cases hr
    exact ⟨e, rfl, rfl⟩

/-- A request answered with an error, ILLEGAL_COMMAND among them, has only raised it. -/
theorem perform_eq_raise {s t : State} {req : Request} {r : Response} (h : s.perform req = .next t)
    (hr : t.response = some r) (hne : r.status ≠ 0) : ∃ e, t = s.raise e ∧ r = ⟨e.code, 0⟩ := by
  cases hdec : decode req with
  | ok i =>
    rw [perform_of_decode_ok hdec] at h
    exact exec_eq_raise h hr hne
  | error _ =>
    rw [perform_of_decode_error hdec] at h
    cases h
    cases hr
    exact ⟨.illegalCommand, rfl, rfl⟩

/-- Settles O20: raising an error writes the port's two words alone, with RESULT 0. -/
theorem errorChangesNoState : Obligations.ErrorChangesNoState := by
  intro s t req r hreset hreq hstep hr hne
  rw [step_of_request hreset hreq] at hstep
  obtain ⟨e, rfl, rfl⟩ := perform_eq_raise hstep hr hne
  exact ⟨rfl, rfl, s.answer_sameButPort e 0⟩

/-! ### An error is not sticky (R186) -/

/-- No command looks at either word of the port: each answers them away. -/
theorem exec_port (i : Instr) (s : State) (q : Option Request) (p : Option Response) :
    exec i { s with request := q, response := p } = exec i s := by
  cases i <;> rfl

/-- Nor does performing a request, be it a command or not. -/
theorem State.perform_port (s : State) (q : Option Request) (p : Option Response) (req : Request) :
    State.perform { s with request := q, response := p } req = s.perform req := by
  cases hdec : decode req with
  | ok i => rw [perform_of_decode_ok hdec, perform_of_decode_ok hdec, exec_port]
  | error _ =>
    rw [perform_of_decode_error hdec, perform_of_decode_error hdec]
    rfl

/-- With no reset asserted, the step at a request does not depend on the response that still stands at the port. -/
theorem step_port {s : State} (hreset : s.resetIn = false) (req : Request) (p : Option Response) :
    step { s with request := some req, response := p } = s.perform req :=
  (step_of_request (s := { s with request := some req, response := p }) hreset rfl).trans (s.perform_port _ p req)

/-- Settles O21: the error has changed the port's two words alone, at which the next request does not look. -/
theorem errorIsNotSticky : Obligations.ErrorIsNotSticky := by
  refine ⟨fun s t req r hreset hreq hstep hr hne req' => ?step, fun i j s t r hexec hr hne => ?exec⟩
  case step =>
    rw [step_of_request hreset hreq] at hstep
    obtain ⟨e, rfl, -⟩ := perform_eq_raise hstep hr hne
    exact (step_port hreset req' (some ⟨e.code, 0⟩)).trans (step_port hreset req' s.response).symm
  case exec =>
    obtain ⟨e, rfl, -⟩ := exec_eq_raise hexec hr hne
    exact exec_port j s none (some ⟨e.code, 0⟩)

/-! ### The checks and their causes (R180, R182) -/

theorem State.retrieveStatus_eq_rangeError_iff {s : State} {idx : DataWord} :
    s.retrieveStatus idx = .rangeError ↔ s.count ≤ idx.toNat := by
  simp [State.retrieveStatus]

theorem State.byteReadStatus_eq_rangeError_iff {s : State} {j : DataWord} :
    s.byteReadStatus j = .rangeError ↔ s.buf.len ≤ j.toNat := by
  simp [State.byteReadStatus]

theorem State.byteReadStatus_of_lt {s : State} {j : DataWord} (h : j.toNat < s.buf.len) : s.byteReadStatus j = .ok :=
  if_neg (Nat.not_le.2 h)

theorem State.retrieveStatus_cases (s : State) (idx : DataWord) :
    s.retrieveStatus idx = .rangeError ∨ s.retrieveStatus idx = .ok := ite_eq_or_eq ..

theorem State.byteReadStatus_cases (s : State) (j : DataWord) :
    s.byteReadStatus j = .rangeError ∨ s.byteReadStatus j = .ok := ite_eq_or_eq ..

/-- The width check comes first (R182), so a full sequence is the cause only for a value that fits. -/
theorem State.insertStatus_cases (s : State) (v : DataWord) :
    (s.insertStatus v = .capacityError ∧ 2 ^ s.W ≤ v.toNat) ∨
      (s.insertStatus v = .storageExhausted ∧ v.toNat < 2 ^ s.W ∧ s.count = s.params.maxCount) ∨
      (s.insertStatus v = .ok ∧ v.toNat < 2 ^ s.W ∧ s.count ≠ s.params.maxCount) := by
  rcases Nat.lt_or_ge v.toNat (2 ^ s.W) with hfits | hwide
  · by_cases hfull : s.count = s.params.maxCount
    · exact .inr (.inl ⟨State.insertStatus_of_full hfits hfull, hfits, hfull⟩)
    · exact .inr (.inr ⟨State.insertStatus_eq_ok_iff.2 ⟨hfits, hfull⟩, hfits, hfull⟩)
  · exact .inl ⟨State.insertStatus_of_wide hwide, hwide⟩

theorem State.insertStatus_eq_capacityError_iff {s : State} {v : DataWord} :
    s.insertStatus v = .capacityError ↔ 2 ^ s.W ≤ v.toNat := by
  rcases s.insertStatus_cases v with ⟨hst, hwide⟩ | ⟨hst, hfits, -⟩ | ⟨hst, hfits, -⟩
  · simp [hst, hwide]
  · simp [hst, hfits]
  · simp [hst, hfits]

theorem State.insertStatus_eq_storageExhausted_iff {s : State} {v : DataWord} :
    s.insertStatus v = .storageExhausted ↔ v.toNat < 2 ^ s.W ∧ s.count = s.params.maxCount := by
  rcases s.insertStatus_cases v with ⟨hst, hwide⟩ | ⟨hst, hfits, hfull⟩ | ⟨hst, hfits, hroom⟩
  · simp [hst, hwide]
  · simp [hst, hfits, hfull]
  · simp [hst, hroom]

/-! ### Who raises which code (R180) -/

/-- The STATUS of a command that completes: the three checks, and OK for every command that has none. -/
def State.statusOf (s : State) : Instr → Status
  | .seqInsert v => s.insertStatus v
  | .seqRetrieve idx => s.retrieveStatus idx
  | .seqByteRead j => s.byteReadStatus j
  | _ => .ok

/-- A command's response carries the code of its status. -/
theorem exec_status {i : Instr} {s t : State} {r : Response} (h : exec i s = .next t) (hr : t.response = some r) :
    r.status = (s.statusOf i).code := by
  cases i with
  | seqInsert v =>
    rcases exec_seqInsert_cases h with ⟨hok, rfl⟩ | ⟨-, rfl⟩
    · cases hr
      exact congrArg Status.code hok.symm
    · cases hr
      rfl
  | seqRetrieve idx =>
    rcases Nat.lt_or_ge idx.toNat s.count with hlt | hge
    · rw [exec_seqRetrieve_of_lt hlt] at h
      split at h
      · cases h
        cases hr
        exact congrArg Status.code (State.retrieveStatus_of_lt hlt).symm
      · cases h
    · rw [exec_seqRetrieve_of_le hge] at h
      cases h
      cases hr
      exact congrArg Status.code (State.retrieveStatus_eq_rangeError_iff.2 hge).symm
  | seqByteRead j =>
    rcases Nat.lt_or_ge j.toNat s.buf.len with hlt | hge
    · rw [exec_seqByteRead_of_lt hlt] at h
      cases h
      cases hr
      exact congrArg Status.code (State.byteReadStatus_of_lt hlt).symm
    · rw [exec_seqByteRead_of_le hge] at h
      cases h
      cases hr
      exact congrArg Status.code (State.byteReadStatus_of_le hge).symm
  | _ =>
    cases h
    cases hr
    rfl

theorem State.statusOf_eq_rangeError_iff {s : State} {i : Instr} :
    s.statusOf i = .rangeError ↔
      (∃ idx, i = .seqRetrieve idx ∧ s.count ≤ idx.toNat) ∨ ∃ j, i = .seqByteRead j ∧ s.buf.len ≤ j.toNat := by
  cases i with
  | seqInsert v => rcases s.insertStatus_cases v with ⟨hst, -⟩ | ⟨hst, -⟩ | ⟨hst, -⟩ <;> simp [State.statusOf, hst]
  | seqRetrieve idx => simp [State.statusOf, State.retrieveStatus_eq_rangeError_iff]
  | seqByteRead j => simp [State.statusOf, State.byteReadStatus_eq_rangeError_iff]
  | _ => simp [State.statusOf]

/-- Only SEQ_INSERT has the checks of the codes 2 and 3. -/
theorem State.statusOf_of_not_insert {s : State} {i : Instr} (hi : ∀ v, i ≠ .seqInsert v) :
    s.statusOf i = .rangeError ∨ s.statusOf i = .ok := by
  cases i with
  | seqInsert v => exact absurd rfl (hi v)
  | seqRetrieve idx => exact s.retrieveStatus_cases idx
  | seqByteRead j => exact s.byteReadStatus_cases j
  | _ => exact .inr rfl

/-- Every code but OK and RANGE_ERROR comes from SEQ_INSERT's checks. -/
theorem State.statusOf_eq_iff_insert {s : State} {i : Instr} {e : Status} (hok : e ≠ .ok) (hrange : e ≠ .rangeError) :
    s.statusOf i = e ↔ ∃ v, i = .seqInsert v ∧ s.insertStatus v = e := by
  constructor
  · rintro rfl
    by_contra hnone
    exact (State.statusOf_of_not_insert fun v hv => hnone ⟨v, hv, by rw [hv, State.statusOf]⟩).elim hrange hok
  · rintro ⟨v, rfl, hst⟩
    exact hst

theorem State.statusOf_eq_capacityError_iff {s : State} {i : Instr} :
    s.statusOf i = .capacityError ↔ ∃ v, i = .seqInsert v ∧ 2 ^ s.W ≤ v.toNat := by
  rw [State.statusOf_eq_iff_insert (by decide) (by decide)]
  simp only [State.insertStatus_eq_capacityError_iff]

theorem State.statusOf_eq_storageExhausted_iff {s : State} {i : Instr} :
    s.statusOf i = .storageExhausted ↔
      ∃ v, i = .seqInsert v ∧ v.toNat < 2 ^ s.W ∧ s.count = s.params.maxCount := by
  rw [State.statusOf_eq_iff_insert (by decide) (by decide)]
  simp only [State.insertStatus_eq_storageExhausted_iff]

/-- No command raises ILLEGAL_COMMAND: it is the decoder's. -/
theorem State.statusOf_ne_illegalCommand (s : State) (i : Instr) : s.statusOf i ≠ .illegalCommand := by
  intro hill
  obtain ⟨v, -, hst⟩ := (State.statusOf_eq_iff_insert (by decide) (by decide)).1 hill
  rcases s.insertStatus_cases v with ⟨hv, -⟩ | ⟨hv, -⟩ | ⟨hv, -⟩ <;> cases hv.symm.trans hst

theorem Status.code_injective : Function.Injective Status.code := by
  intro st st'
  cases st <;> cases st' <;> decide

theorem Status.code_toNat_le_three {st : Status} (h : st ≠ .illegalCommand) : st.code.toNat ≤ 3 := by
  cases st with
  | illegalCommand => exact absurd rfl h
  | _ => decide

/-- Settles O22: a command's code is that of `State.statusOf`, and the decoder's is the one code that is left. -/
theorem statusCodesHaveTheirCauses : Obligations.StatusCodesHaveTheirCauses := by
  refine ⟨fun i s t r hexec hr => ?command, fun s t req r hreset hreq hstep hr => ?step⟩
  case command =>
    have hcode (e : Status) : (s.statusOf i).code = e.code ↔ s.statusOf i = e := Status.code_injective.eq_iff
    rw [exec_status hexec hr]
    exact ⟨Status.code_toNat_le_three (s.statusOf_ne_illegalCommand i),
      (hcode .rangeError).trans State.statusOf_eq_rangeError_iff,
      (hcode .capacityError).trans State.statusOf_eq_capacityError_iff,
      (hcode .storageExhausted).trans State.statusOf_eq_storageExhausted_iff⟩
  case step =>
    rw [step_of_request hreset hreq] at hstep
    cases hdec : decode req with
    | ok i =>
      rw [perform_of_decode_ok hdec] at hstep
      rw [exec_status hstep hr]
      exact iff_of_false (fun h => s.statusOf_ne_illegalCommand i (Status.code_injective h)) nofun
    | error e =>
      rw [perform_of_decode_error hdec] at hstep
      cases hstep
      cases hr
      exact iff_of_true rfl ⟨e, rfl⟩

end Sys2Proof.Machine
end

section
/-! PROOFS. Reset and hazards (70_reset_and_hazards.md): the state a reset leaves (R200, R202), the retrieve after the
insert (R204), and the single-writer discipline (R205), under which the interleaving of the hosts' commands does not
matter.

A run without reset does one of four things at each step, `stepWith_cases_of_running`. Performing a request, delivering
its response and accepting the next command each keep the results, `State.KeepsResults`, and so does every run of them,
`runWith_keepsResults`. -/

namespace Sys2Proof.Machine

/-! ### Reset (R200, R202) -/

/-- Settles O13: reset goes before everything else, and clears the block alone. -/
theorem resetEmptiesTheSequence : Obligations.ResetEmptiesTheSequence :=
  fun _ hreset => ⟨_, step_of_reset hreset, rfl, rfl, rfl, rfl, rfl, rfl, rfl⟩

/-! ### The retrieve after the insert (R204) -/

/-- Settles O41: COUNT has grown, so the value was appended, and it stands at the old COUNT in the list of elements. -/
theorem retrieveSeesTheInsert : Obligations.RetrieveSeesTheInsert := by
  intro s t v hs h hcount
  have ht := exec_inv hs h
  rcases exec_seqInsert_cases h with ⟨hok, rfl⟩ | ⟨-, rfl⟩
  case inl =>
    have helems := State.appendElem_elems hs.bufCanonical hs.widthBounds.2 (State.insertStatus_eq_ok_iff.1 hok).1
    refine ht.completesWith_seqRetrieve_of_elems ?_
    rw [State.respond_elems, helems, ← s.elems_length, List.getElem?_concat_length]
  case inr =>
    rw [State.raise_count] at hcount
    omega

/-! ### Performing a request -/

theorem perform_inv {s t : State} {req : Request} (hs : s.Inv) (h : s.perform req = .next t) : t.Inv := by
  cases hdec : decode req with
  | ok i =>
    rw [perform_of_decode_ok hdec] at h
    exact exec_inv hs h
  | error e =>
    rw [perform_of_decode_error hdec] at h
    cases h
    exact hs.answer (.inr rfl)

theorem perform_params {s t : State} {req : Request} (h : s.perform req = .next t) : t.params = s.params := by
  obtain ⟨-, -, -, hp, -⟩ := perform_answered h
  exact hp

theorem decode_of_insertValue {req : Request} {v : DataWord} (h : insertValue req = some v) :
    decode req = .ok (.seqInsert v) := by
  unfold insertValue at h
  split at h
  case h_1 hdec => rw [hdec, Option.some.inj h]
  case h_2 => cases h

/-- A SEQ_INSERT does to the list of elements what `insertInto` says (R101). -/
theorem exec_seqInsert_elems {s t : State} {v : DataWord} (hs : s.Inv) (h : exec (.seqInsert v) s = .next t) :
    t.elems = insertInto s.params s.elems v := by
  have hok_iff := State.insertStatus_eq_ok_iff (s := s) (v := v)
  rw [← s.elems_length] at hok_iff
  rcases exec_seqInsert_cases h with ⟨hok, rfl⟩ | ⟨hne, rfl⟩
  case inl =>
    have hfits := hok_iff.1 hok
    rw [State.respond_elems, State.appendElem_elems hs.bufCanonical hs.widthBounds.2 hfits.1]
    exact (if_pos hfits).symm
  case inr => exact (if_neg fun hfits => hne (hok_iff.2 hfits)).symm

/-- Performing a request inserts its value into the elements, if it is a SEQ_INSERT. -/
theorem perform_elems {s t : State} {req : Request} (hs : s.Inv) (h : s.perform req = .next t) :
    t.elems = (insertValue req).toList.foldl (insertInto s.params) s.elems := by
  cases hv : insertValue req with
  | none => exact (perform_sameSeq hv h).elems
  | some v =>
    rw [perform_of_decode_ok (decode_of_insertValue hv)] at h
    exact exec_seqInsert_elems hs h

/-! ### Requests performed with no other command between them -/

section Serve

variable {s s' t : State} {req : Request} {reqs : List Request}

theorem State.serve_cons_of_next (h : s.perform req = .next t) :
    State.serve (req :: reqs) s = State.serve reqs t := by
  simp [State.serve, h]

theorem State.answers_cons_of_next (h : s.perform req = .next t) :
    State.answers (req :: reqs) s = t.response.toList ++ State.answers reqs t := by
  simp [State.answers, h]

theorem State.serve_params (reqs : List Request) (s : State) : (State.serve reqs s).params = s.params := by
  induction reqs generalizing s with
  | nil => rfl
  | cons req reqs ih =>
    rw [State.serve]
    split
    case h_1 t h => rw [ih, perform_params h]
    case h_2 => rfl
    case h_3 => rfl

theorem State.serve_inv (hs : s.Inv) (reqs : List Request) : (State.serve reqs s).Inv := by
  induction reqs generalizing s with
  | nil => exact hs
  | cons req reqs ih =>
    obtain ⟨t, h⟩ := perform_next_of_inv hs req
    rw [State.serve_cons_of_next h]
    exact ih (perform_inv hs h)

/-- What requests leave of SEQ depends on SEQ alone. -/
theorem State.SameSeq.serve (hseq : s.SameSeq s') (hs : s.Inv) (reqs : List Request) :
    (State.serve reqs s).SameSeq (State.serve reqs s') := by
  induction reqs generalizing s s' with
  | nil => exact hseq
  | cons req reqs ih =>
    obtain ⟨t, h⟩ := perform_next_of_inv hs req
    obtain ⟨t', h', hseq', -⟩ := perform_congr hseq h
    rw [State.serve_cons_of_next h, State.serve_cons_of_next h']
    exact ih hseq' (perform_inv hs h)

/-- What requests are answered depends on SEQ alone. -/
theorem State.SameSeq.answers (hseq : s.SameSeq s') (hs : s.Inv) (reqs : List Request) :
    State.answers reqs s' = State.answers reqs s := by
  induction reqs generalizing s s' with
  | nil => rfl
  | cons req reqs ih =>
    obtain ⟨t, h⟩ := perform_next_of_inv hs req
    obtain ⟨t', h', hseq', hresp⟩ := perform_congr hseq h
    rw [State.answers_cons_of_next h, State.answers_cons_of_next h', hresp, ih hseq' (perform_inv hs h)]

/-- Requests without a SEQ_INSERT leave SEQ as it is. -/
theorem State.serve_sameSeq (hs : s.Inv) (hreqs : ∀ r ∈ reqs, insertValue r = none) :
    s.SameSeq (State.serve reqs s) := by
  induction reqs generalizing s with
  | nil => exact .rfl
  | cons req reqs ih =>
    obtain ⟨hreq, hrest⟩ := List.forall_mem_cons.1 hreqs
    obtain ⟨t, h⟩ := perform_next_of_inv hs req
    rw [State.serve_cons_of_next h]
    exact (perform_sameSeq hreq h).trans (ih (perform_inv hs h) hrest)

/-- The heart of the discipline: a request that is no SEQ_INSERT, and that reads the elements only where the writer has
no insert left, is answered before the writer's requests `writes` as it would be after them. -/
theorem perform_response_after_serve {writes : List Request} (hs : s.Inv) (h : s.perform req = .next t)
    (hinsert : insertValue req = none)
    (hreader : readsElements req = true → ∀ r ∈ writes, insertValue r = none) :
    ∃ u, (State.serve writes s).perform req = .next u ∧ u.response = t.response := by
  by_cases hreads : readsElements req = true
  · obtain ⟨u, hu, -, hresp⟩ := perform_congr (State.serve_sameSeq hs (hreader hreads)) h
    exact ⟨u, hu, hresp⟩
  · exact perform_response_congr (State.serve_params writes s) hinsert (Bool.eq_false_of_not_eq_true hreads) h

/-- So such a request can be answered now, and the requests after it once the writer has finished. -/
theorem answers_after_serve {writes : List Request} (hs : s.Inv) (h : s.perform req = .next t)
    (hinsert : insertValue req = none)
    (hreader : readsElements req = true → ∀ r ∈ writes, insertValue r = none) :
    State.answers (req :: reqs) (State.serve writes s) =
      t.response.toList ++ State.answers reqs (State.serve writes t) := by
  obtain ⟨u, hu, hresp⟩ := perform_response_after_serve hs h hinsert hreader
  have hseq : (State.serve writes t).SameSeq u :=
    ((perform_sameSeq hinsert h).symm.serve (perform_inv hs h) writes).trans (perform_sameSeq hinsert hu)
  rw [State.answers_cons_of_next hu, hresp, hseq.answers (State.serve_inv (perform_inv hs h) writes)]

end Serve

/-! ### What the free port takes -/

section Accept

variable {s : State} {h : Nat} {x : Send} {rest : List Send} {received : List Response}

theorem State.acceptFrom_response (hs : s.agents[h]? = some ⟨x :: rest, received⟩) :
    (s.acceptFrom h).response = s.response := by
  rw [acceptFrom_of_issue hs]

theorem State.acceptFrom_resetIn (hs : s.agents[h]? = some ⟨x :: rest, received⟩) :
    (s.acceptFrom h).resetIn = s.resetIn := by
  rw [acceptFrom_of_issue hs]

theorem State.acceptFrom_agents_length (hs : s.agents[h]? = some ⟨x :: rest, received⟩) :
    (s.acceptFrom h).agents.length = s.agents.length := by
  rw [acceptFrom_of_issue hs, List.length_set]

/-- The command a host sends moves from its issue order to the port. -/
theorem State.acceptFrom_portRequestOf_append_issueOf (hs : s.agents[h]? = some ⟨x :: rest, received⟩) (w : Nat) :
    (s.acceptFrom h).portRequestOf w ++ (s.acceptFrom h).issueOf w = s.issueOf w := by
  rw [State.portRequestOf, State.acceptFrom_owner hs, State.acceptFrom_request hs, State.issueOf,
    State.acceptFrom_sendsOf hs]
  by_cases hw : w = h
  · subst hw
    simp [State.issueOf_of_some hs]
  · simp [hw, Ne.symm hw, State.issueOf]

theorem State.mem_sendsOf_of_acceptFrom (hs : s.agents[h]? = some ⟨x :: rest, received⟩) {w : Nat} {y : Send}
    (hy : y ∈ (s.acceptFrom h).sendsOf w) : y ∈ s.sendsOf w := by
  rw [State.acceptFrom_sendsOf hs] at hy
  split at hy
  case isTrue hw => exact hw ▸ State.sendsOf_of_some hs ▸ List.mem_cons_of_mem x hy
  case isFalse => exact hy

theorem State.acceptFrom_issueOf_of_ne (hs : s.agents[h]? = some ⟨x :: rest, received⟩) {w : Nat} (hw : w ≠ h) :
    (s.acceptFrom h).issueOf w = s.issueOf w := by
  rw [State.issueOf, State.acceptFrom_sendsOf hs, if_neg hw, State.issueOf]

end Accept

/-- All that a step can do with no reset asserted. -/
theorem stepWith_cases_of_running {arbiter : Nat → Nat} {s t : State} (hreset : s.resetIn = false)
    (h : stepWith arbiter s = .next t) :
    (∃ req, s.request = some req ∧ s.perform req = .next t) ∨
      (s.request = none ∧ ∃ r, s.response = some r ∧ t = s.deliver r) ∨
      (s.request = none ∧ s.response = none ∧ ∃ h x rest received,
        s.agents[h]? = some ⟨x :: rest, received⟩ ∧ s.synced x = true ∧ t = s.acceptFrom h) ∨
      t = s := by
  rcases stepWith_cases h with ⟨hyes, -⟩ | ⟨-, req, hreq, ⟨i, hdec, hexec⟩ | ⟨e, hdec, rfl⟩⟩ |
    ⟨-, hreq, r, hresp, ht⟩ | ⟨-, hreq, hresp, rfl⟩
  · rw [hreset] at hyes
    cases hyes
  · exact .inl ⟨req, hreq, (perform_of_decode_ok hdec).trans hexec⟩
  · exact .inl ⟨req, hreq, perform_of_decode_error hdec⟩
  · exact .inr (.inl ⟨hreq, r, hresp, ht⟩)
  · rcases acceptNext_cases arbiter s with ⟨hwait, -⟩ | ⟨h, x, rest, received, hagent, hsynced, htake⟩
    · exact .inr (.inr (.inr hwait))
    · refine .inr (.inr (.inl ⟨hreq, hresp, h, x, rest, received, hagent, hsynced, ?_⟩))
      rw [htake, acceptFrom_of_issue hagent]

/-! ### The elements the machine ends with -/

section Results

variable {s t : State} {w : Nat}

theorem State.SingleWriter.of_sendsOf_mem (hsw : s.SingleWriter w)
    (hsends : ∀ h, ∀ y ∈ t.sendsOf h, y ∈ s.sendsOf h) : t.SingleWriter w := by
  intro h hne req hreq
  obtain ⟨y, hy, rfl⟩ := List.mem_map.1 hreq
  exact hsw h hne _ (List.mem_map_of_mem (hsends h y hy))

/-- The inserts still to come, from the port and from the writer. -/
theorem State.pendingInserts_eq (s : State) (w : Nat) :
    s.pendingInserts w = s.request.toList.filterMap insertValue ++ (s.issueOf w).filterMap insertValue :=
  List.filterMap_append

theorem State.SameSeq.finalElems (hseq : s.SameSeq t) (hpending : t.pendingInserts w = s.pendingInserts w) :
    t.finalElems w = s.finalElems w := by
  rw [State.finalElems, State.finalElems, hpending, hseq.elems, hseq.1]

/-- Performing a request takes its value from the inserts to come and inserts it. -/
theorem perform_finalElems {req : Request} (hs : s.Inv) (hreq : s.request = some req) (h : s.perform req = .next t) :
    t.finalElems w = s.finalElems w := by
  obtain ⟨_, _, ⟨htreq, -⟩, hp, -, hagents, -⟩ := perform_answered h
  have hport : [req].filterMap insertValue = (insertValue req).toList := by
    cases hv : insertValue req <;> simp [hv]
  rw [State.finalElems, State.finalElems, State.pendingInserts_eq, State.pendingInserts_eq, htreq, hreq, hp,
    State.issueOf_of_agents hagents, perform_elems hs h, Option.toList_none, List.filterMap_nil,
    List.nil_append, Option.toList_some, hport, List.foldl_append]

theorem State.deliver_finalElems (s : State) (r : Response) (w : Nat) :
    (s.deliver r).finalElems w = s.finalElems w := by
  refine State.SameSeq.finalElems ⟨rfl, rfl, rfl⟩ ?_
  rw [State.pendingInserts, State.pendingInserts, State.deliver_issueOf, State.deliver_request]

/-- Accepting a command changes no insert to come: the writer's moves to the port, another host's is none. -/
theorem State.acceptFrom_finalElems {h : Nat} {x : Send} {rest : List Send} {received : List Response}
    (hsw : s.SingleWriter w) (hreq : s.request = none) (hagent : s.agents[h]? = some ⟨x :: rest, received⟩) :
    (s.acceptFrom h).finalElems w = s.finalElems w := by
  refine (State.acceptFrom_sameSeq hagent).finalElems ?_
  rw [State.pendingInserts_eq, State.pendingInserts_eq, hreq, State.acceptFrom_request hagent]
  by_cases hw : w = h
  · subst hw
    rw [State.issueOf_of_some hagent, State.issueOf, State.acceptFrom_sendsOf hagent, if_pos rfl,
      ← List.filterMap_append]
    rfl
  · have hx : insertValue x.request = none :=
      hsw h (Ne.symm hw) _ (by simp [State.issueOf_of_some hagent])
    rw [State.acceptFrom_issueOf_of_ne hagent hw]
    simp [hx]

/-! ### The discipline along a step -/

theorem State.unanswered_of_owner_ne (h : s.owner ≠ some w) : s.unanswered w = (s.issueOf w).map some := by
  simp [State.unanswered, h]

theorem State.unanswered_of_free (hreq : s.request = none) (hresp : s.response = none) :
    s.unanswered w = (s.issueOf w).map some := by
  simp [State.unanswered, hreq, hresp]

theorem State.unanswered_of_request {req : Request} (howner : s.owner = some w) (hreq : s.request = some req) :
    s.unanswered w = some req :: (s.issueOf w).map some := by
  simp [State.unanswered, howner, hreq]

theorem State.unanswered_of_response {r : Response} (howner : s.owner = some w) (hreq : s.request = none)
    (hresp : s.response = some r) : s.unanswered w = none :: (s.issueOf w).map some := by
  simp [State.unanswered, howner, hreq, hresp]

theorem State.InsertsDone.of_unanswered_eq {n : Nat} (hdone : s.InsertsDone w n)
    (hunanswered : t.unanswered w = s.unanswered w) (hreceived : t.receivedOf w = s.receivedOf w) :
    t.InsertsDone w n := by
  rwa [State.InsertsDone, hunanswered, hreceived]

/-- A wait that is over says that the writer has no insert left, and so does a wait for no response. -/
theorem State.InsertsDone.of_le {n : Nat} (hdone : s.InsertsDone w n) (hn : n ≤ (s.receivedOf w).length) :
    s.InsertsDone w 0 := by
  rwa [State.InsertsDone, Nat.sub_eq_zero_of_le hn, ← Nat.zero_sub] at hdone

theorem State.InsertsDone.issueOf (hdone : s.InsertsDone w 0) : ∀ req ∈ s.issueOf w, insertValue req = none := by
  intro req hreq
  refine hdone req ?_
  rw [Nat.zero_sub, List.drop_zero]
  exact List.mem_append_right _ (List.mem_map_of_mem hreq)

/-- Once the writer's command is performed, it is no insert to come. -/
theorem State.InsertsDone.perform {req : Request} {n : Nat} (hdone : s.InsertsDone w n) (hreq : s.request = some req)
    (h : s.perform req = .next t) : t.InsertsDone w n := by
  obtain ⟨_, _, ⟨htreq, htresp⟩, -, -, hagents, howner, -⟩ := perform_answered h
  have hissue := State.issueOf_of_agents hagents w
  have hreceived := State.receivedOf_of_agents hagents w
  by_cases how : s.owner = some w
  · intro q hq
    rw [State.unanswered_of_response (howner.trans how) htreq htresp, hissue, hreceived] at hq
    refine hdone q ?_
    rw [State.unanswered_of_request how hreq]
    cases hk : n - (s.receivedOf w).length with
    | zero => exact List.mem_cons_of_mem _ (by simpa [hk] using hq)
    | succ k => simpa [hk] using hq
  · refine hdone.of_unanswered_eq ?_ hreceived
    rw [State.unanswered_of_owner_ne how, State.unanswered_of_owner_ne (howner ▸ how), hissue]

/-- A host that is not listed has nothing to send. -/
theorem State.issueOf_of_le (h : s.agents.length ≤ w) : s.issueOf w = [] := by
  simp [State.issueOf, State.sendsOf, List.getElem?_eq_none_iff.2 h]

/-- A response to the writer counts for those that wait for it, and is one less to come. -/
theorem State.InsertsDone.deliver {r : Response} {n : Nat} (hdone : s.InsertsDone w n) (hreq : s.request = none)
    (hresp : s.response = some r) : (s.deliver r).InsertsDone w n := by
  have htfree : (s.deliver r).unanswered w = (s.issueOf w).map some := by
    rw [State.unanswered_of_free (s := s.deliver r) hreq rfl, State.deliver_issueOf]
  by_cases howner : s.owner = some w
  case neg =>
    refine hdone.of_unanswered_eq ?_ ?_
    · rw [htfree, State.unanswered_of_owner_ne howner]
    · rw [State.deliver_receivedOf, if_neg fun how => howner how.1]
  case pos =>
    intro q hq
    rw [htfree, State.deliver_receivedOf] at hq
    by_cases hlisted : w < s.agents.length
    case neg =>
      rw [State.issueOf_of_le (Nat.not_lt.1 hlisted), List.map_nil, List.drop_nil] at hq
      cases hq
    case pos =>
      rw [if_pos ⟨howner, hlisted⟩, List.length_append, List.length_singleton] at hq
      refine hdone q ?_
      rw [State.unanswered_of_response howner hreq hresp]
      rcases Nat.lt_or_ge (s.receivedOf w).length n with hlt | hge
      · have hk : n - (s.receivedOf w).length = n - ((s.receivedOf w).length + 1) + 1 := by omega
        rwa [hk, List.drop_succ_cons]
      · rw [Nat.sub_eq_zero_of_le hge]
        exact List.mem_cons_of_mem _ (List.mem_of_mem_drop hq)

/-- A command taken from the writer's issue order has had no response yet. -/
theorem State.acceptFrom_unanswered {h : Nat} {x : Send} {rest : List Send} {received : List Response}
    (hreq : s.request = none) (hresp : s.response = none) (hagent : s.agents[h]? = some ⟨x :: rest, received⟩) :
    (s.acceptFrom h).unanswered w = s.unanswered w := by
  rw [State.unanswered_of_free hreq hresp, ← State.acceptFrom_portRequestOf_append_issueOf hagent]
  by_cases how : (s.acceptFrom h).owner = some w
  · rw [State.unanswered_of_request how (State.acceptFrom_request hagent), State.portRequestOf, if_pos how,
      State.acceptFrom_request hagent]
    rfl
  · rw [State.unanswered_of_owner_ne how, State.portRequestOf, if_neg how, List.nil_append]

/-- A step that leaves no request at the port and takes nothing from the hosts keeps the discipline, if no wait for the
writer ends too early by it. -/
theorem State.Disciplined.of_done (hd : s.Disciplined w) (hreq : t.request = none)
    (hsends : ∀ h, t.sendsOf h = s.sendsOf h) (hdone : ∀ n, s.InsertsDone w n → t.InsertsDone w n) :
    t.Disciplined w where
  singleWriter := hd.singleWriter.of_sendsOf_mem fun h y hy => hsends h ▸ hy
  portInsert := by simp [hreq]
  portReader := by simp [hreq]
  readersWait := fun h hne before x rest hx hreads => by
    obtain ⟨n, hn, hsdone⟩ := hd.readersWait h hne before x rest (hsends h ▸ hx) hreads
    exact ⟨n, hn, hdone n hsdone⟩

theorem State.Disciplined.perform {req : Request} (hd : s.Disciplined w) (hreq : s.request = some req)
    (h : s.perform req = .next t) : t.Disciplined w := by
  obtain ⟨_, _, ⟨htreq, -⟩, -, -, hagents, -⟩ := perform_answered h
  exact hd.of_done htreq (State.sendsOf_of_agents hagents) fun _ hdone => hdone.perform hreq h

theorem State.Disciplined.deliver {r : Response} (hd : s.Disciplined w) (hreq : s.request = none)
    (hresp : s.response = some r) : (s.deliver r).Disciplined w :=
  hd.of_done hreq (s.deliver_sendsOf r) fun _ hdone => hdone.deliver hreq hresp

section Accept

variable {h : Nat} {x : Send} {rest : List Send} {received : List Response}

/-- A reading command that another host may send now finds no insert of the writer left. -/
theorem State.Disciplined.issueOf_of_reader (hd : s.Disciplined w) (hne : h ≠ w)
    (hagent : s.agents[h]? = some ⟨x :: rest, received⟩) (hsynced : s.synced x = true)
    (hreads : readsElements x.request = true) : ∀ req ∈ s.issueOf w, insertValue req = none := by
  obtain ⟨n, hn, hdone⟩ := hd.readersWait h hne [] x rest (State.sendsOf_of_some hagent) hreads
  refine (hdone.of_le ?_).issueOf
  rcases hn with rfl | ⟨y, hy, hafter⟩
  · exact Nat.zero_le _
  · rw [List.nil_append, List.mem_singleton] at hy
    subst hy
    exact State.synced_iff.1 hsynced _ hafter

/-- A wait of the command that is taken has ended, so the commands after it need not wait again. -/
theorem State.Disciplined.acceptFrom (hd : s.Disciplined w) (hreq : s.request = none) (hresp : s.response = none)
    (hagent : s.agents[h]? = some ⟨x :: rest, received⟩) (hsynced : s.synced x = true) :
    (s.acceptFrom h).Disciplined w := by
  have hsends := State.acceptFrom_sendsOf hagent
  have hdone_keeps : ∀ n, s.InsertsDone w n → (s.acceptFrom h).InsertsDone w n := fun n hdone =>
    hdone.of_unanswered_eq (State.acceptFrom_unanswered hreq hresp hagent) (State.acceptFrom_receivedOf hagent w)
  have hother : (s.acceptFrom h).owner ≠ some w → h ≠ w := fun howner hhw =>
    howner (hhw ▸ State.acceptFrom_owner hagent)
  refine ⟨hd.singleWriter.of_sendsOf_mem fun _ _ => State.mem_sendsOf_of_acceptFrom hagent,
    fun req hsome howner => ?portInsert, fun req hsome howner hreads => ?portReader,
    fun h' hne before y rest' hy hreads => ?readersWait⟩
  case portInsert =>
    rw [State.acceptFrom_request hagent, Option.some.injEq] at hsome
    subst hsome
    exact hd.singleWriter h (hother howner) _ (by simp [State.issueOf_of_some hagent])
  case portReader =>
    rw [State.acceptFrom_request hagent, Option.some.injEq] at hsome
    subst hsome
    rw [State.acceptFrom_issueOf_of_ne hagent (hother howner).symm]
    exact hd.issueOf_of_reader (hother howner) hagent hsynced hreads
  case readersWait =>
    rw [hsends] at hy
    split at hy
    case isFalse =>
      obtain ⟨n, hn, hdone⟩ := hd.readersWait h' hne before y rest' hy hreads
      exact ⟨n, hn, hdone_keeps n hdone⟩
    case isTrue heq =>
      subst heq
      obtain ⟨n, hn, hdone⟩ := hd.readersWait h' hne (x :: before) y rest'
        (by rw [State.sendsOf_of_some hagent, hy, List.cons_append]) hreads
      rcases hn with rfl | ⟨z, hz, hafter⟩
      · exact ⟨0, .inl rfl, hdone_keeps 0 hdone⟩
      · rw [List.cons_append, List.mem_cons] at hz
        rcases hz with rfl | hz
        · exact ⟨0, .inl rfl, hdone_keeps 0 (hdone.of_le (State.synced_iff.1 hsynced _ hafter))⟩
        · exact ⟨n, .inr ⟨z, hz, hafter⟩, hdone_keeps n hdone⟩

end Accept

/-! ### The responses the hosts end with -/

theorem State.portRequestOf_of_none (hreq : s.request = none) (h : Nat) : s.portRequestOf h = [] := by
  simp [State.portRequestOf, hreq]

theorem State.portResponseOf_of_none (hresp : s.response = none) (h : Nat) : s.portResponseOf h = [] := by
  simp [State.portResponseOf, hresp]

theorem State.finalReceived_writer (s : State) (w : Nat) :
    s.finalReceived w w =
      s.receivedOf w ++ s.portResponseOf w ++ State.answers (s.portRequestOf w ++ s.issueOf w) s := by
  rw [State.finalReceived, if_pos rfl]

theorem State.finalReceived_of_ne (s : State) {h : Nat} (hne : h ≠ w) :
    s.finalReceived w h = s.receivedOf h ++ s.portResponseOf h ++
      State.answers (s.portRequestOf h ++ s.issueOf h) (State.serve (s.request.toList ++ s.issueOf w) s) := by
  rw [State.finalReceived, if_neg hne]

/-- Performing a request, seen by the writer: its own command is answered now, and another host's, which is no insert,
changes none of its answers. -/
theorem perform_finalReceived_writer {req : Request} (hs : s.Inv) (hd : s.Disciplined w)
    (hreq : s.request = some req) (h : s.perform req = .next t) : t.finalReceived w w = s.finalReceived w w := by
  obtain ⟨_, _, ⟨htreq, -⟩, -, -, hagents, howner, -⟩ := perform_answered h
  have hresp : s.response = none := hs.portExclusive (by simp [hreq])
  rw [State.finalReceived_writer, State.finalReceived_writer, State.receivedOf_of_agents hagents,
    State.issueOf_of_agents hagents, State.portResponseOf_of_none hresp, State.portRequestOf_of_none htreq,
    State.portResponseOf, howner, State.portRequestOf, hreq, Option.toList_some]
  by_cases how : s.owner = some w
  · simp [how, State.answers_cons_of_next h]
  · have hseq := perform_sameSeq (hd.portInsert req hreq how) h
    simp [how, hseq.answers hs]

/-- Performing a request, seen by another host: its own command is answered as after the writer's, and any other
counts among those the writer has finished before this host's. -/
theorem perform_finalReceived_of_ne {req : Request} (hs : s.Inv) (hd : s.Disciplined w)
    (hreq : s.request = some req) (h : s.perform req = .next t) {k : Nat} (hne : k ≠ w) :
    t.finalReceived w k = s.finalReceived w k := by
  obtain ⟨_, _, ⟨htreq, -⟩, -, -, hagents, howner, -⟩ := perform_answered h
  have hresp : s.response = none := hs.portExclusive (by simp [hreq])
  rw [State.finalReceived_of_ne t hne, State.finalReceived_of_ne s hne, State.receivedOf_of_agents hagents,
    State.issueOf_of_agents hagents, State.issueOf_of_agents hagents, State.portResponseOf_of_none hresp,
    State.portRequestOf_of_none htreq, State.portResponseOf, howner, State.portRequestOf, htreq, hreq,
    Option.toList_some, List.singleton_append, State.serve_cons_of_next h]
  by_cases how : s.owner = some k
  · have hother : s.owner ≠ some w := by simpa [how] using hne
    have hinsert := hd.portInsert req hreq hother
    have hseq : (State.serve (s.issueOf w) s).SameSeq (State.serve (s.issueOf w) t) :=
      (perform_sameSeq hinsert h).serve hs _
    have hanswers := answers_after_serve (reqs := s.issueOf k) hs h hinsert (hd.portReader req hreq hother)
    rw [← hseq.answers (State.serve_inv hs _)] at hanswers
    simp [how, hanswers]
  · simp [how]

/-- Delivering a response moves it from the port to its host. -/
theorem State.deliver_finalReceived {r : Response} (hs : s.Inv) (hreq : s.request = none) (hresp : s.response = some r)
    {h : Nat} (hlt : h < s.agents.length) : (s.deliver r).finalReceived w h = s.finalReceived w h := by
  have hseq : s.SameSeq (s.deliver r) := ⟨rfl, rfl, rfl⟩
  have hmoved : (s.deliver r).receivedOf h ++ (s.deliver r).portResponseOf h =
      s.receivedOf h ++ s.portResponseOf h := by
    rw [State.portResponseOf_of_none rfl, State.deliver_receivedOf, State.portResponseOf, hresp]
    by_cases how : s.owner = some h <;> simp [how, hlt]
  have hport := State.portRequestOf_of_none (s := s.deliver r) hreq h
  by_cases hw : h = w
  · subst hw
    rw [State.finalReceived_writer, State.finalReceived_writer, hmoved, hport, State.portRequestOf_of_none hreq,
      State.deliver_issueOf, hseq.answers hs]
  · rw [State.finalReceived_of_ne _ hw, State.finalReceived_of_ne _ hw, hmoved, hport,
      State.portRequestOf_of_none hreq, State.deliver_issueOf, State.deliver_issueOf, State.deliver_request,
      (hseq.serve hs _).answers (State.serve_inv hs _)]

/-- Accepting a command moves it from its host to the port; another host's command there does not change what the
writer's leave, since it is no insert. -/
theorem State.acceptFrom_finalReceived {h : Nat} {x : Send} {rest : List Send} {received : List Response} (hs : s.Inv)
    (hsw : s.SingleWriter w) (hreq : s.request = none) (hresp : s.response = none)
    (hagent : s.agents[h]? = some ⟨x :: rest, received⟩) (h' : Nat) :
    (s.acceptFrom h).finalReceived w h' = s.finalReceived w h' := by
  have hseq := State.acceptFrom_sameSeq hagent
  have hresp' : (s.acceptFrom h).response = none := (State.acceptFrom_response hagent).trans hresp
  have hmoved := State.acceptFrom_portRequestOf_append_issueOf hagent
  have hserve : (State.serve (s.issueOf w) s).SameSeq
      (State.serve ((s.acceptFrom h).request.toList ++ (s.acceptFrom h).issueOf w) (s.acceptFrom h)) := by
    by_cases hw : h = w
    · have hport : (s.acceptFrom h).portRequestOf w = (s.acceptFrom h).request.toList :=
        if_pos (hw ▸ State.acceptFrom_owner hagent)
      rw [← hport, hmoved]
      exact hseq.serve hs _
    · obtain ⟨u, hu⟩ := perform_next_of_inv hs x.request
      obtain ⟨u', hu', -, -⟩ := perform_congr hseq hu
      have hinsert : insertValue x.request = none :=
        hsw h hw _ (by simp [State.issueOf_of_some hagent])
      rw [State.acceptFrom_request hagent, State.acceptFrom_issueOf_of_ne hagent (Ne.symm hw), Option.toList_some,
        List.singleton_append, State.serve_cons_of_next hu']
      exact (hseq.trans (perform_sameSeq hinsert hu')).serve hs _
  by_cases hw : h' = w
  · subst hw
    rw [State.finalReceived_writer, State.finalReceived_writer, State.portResponseOf_of_none hresp,
      State.portResponseOf_of_none hresp', State.portRequestOf_of_none hreq, hmoved,
      State.acceptFrom_receivedOf hagent, hseq.answers hs, List.nil_append]
  · rw [State.finalReceived_of_ne _ hw, State.finalReceived_of_ne _ hw, State.portResponseOf_of_none hresp,
      State.portResponseOf_of_none hresp', State.portRequestOf_of_none hreq, hmoved,
      State.acceptFrom_receivedOf hagent, hserve.answers (State.serve_inv hs _), hreq, Option.toList_none,
      List.nil_append, List.nil_append]

/-! ### Every step, and so every run, keeps the results -/

/-- From `s` to `t` the discipline is kept, and under it what the machine will end with: for the elements the writer's
side of it is enough. -/
structure State.KeepsResults (w : Nat) (s t : State) : Prop where
  hosts : t.agents.length = s.agents.length
  elems : s.SingleWriter w → t.SingleWriter w ∧ t.finalElems w = s.finalElems w
  received : s.Disciplined w → t.Disciplined w ∧ ∀ h < s.agents.length, t.finalReceived w h = s.finalReceived w h

theorem State.KeepsResults.rfl : State.KeepsResults w s s :=
  ⟨Eq.refl _, fun hsw => ⟨hsw, Eq.refl _⟩, fun hd => ⟨hd, fun _ _ => Eq.refl _⟩⟩

theorem State.KeepsResults.trans {u : State} (h : State.KeepsResults w s t) (h' : State.KeepsResults w t u) :
    State.KeepsResults w s u := by
  refine ⟨h'.hosts.trans h.hosts, fun hsw => ?elems, fun hd => ?received⟩
  case elems =>
    obtain ⟨htsw, ht⟩ := h.elems hsw
    obtain ⟨husw, hu⟩ := h'.elems htsw
    exact ⟨husw, hu.trans ht⟩
  case received =>
    obtain ⟨htd, ht⟩ := h.received hd
    obtain ⟨hud, hu⟩ := h'.received htd
    exact ⟨hud, fun k hk => (hu k (h.hosts.symm ▸ hk)).trans (ht k hk)⟩

theorem stepWith_keepsResults {arbiter : Nat → Nat} (w : Nat) (hs : s.Inv) (hreset : s.resetIn = false)
    (h : stepWith arbiter s = .next t) : State.KeepsResults w s t := by
  rcases stepWith_cases_of_running hreset h with ⟨req, hreq, hperform⟩ | ⟨hreq, r, hresp, rfl⟩ |
    ⟨hreq, hresp, k, x, rest, received, hagent, hsynced, rfl⟩ | rfl
  · obtain ⟨_, _, -, -, -, hagents, -⟩ := perform_answered hperform
    refine ⟨congrArg List.length hagents,
      fun hsw => ⟨hsw.of_sendsOf_mem fun h _ hy => State.sendsOf_of_agents hagents h ▸ hy,
        perform_finalElems hs hreq hperform⟩,
      fun hd => ⟨hd.perform hreq hperform, fun k _ => ?received⟩⟩
    case received =>
      by_cases hw : k = w
      · subst hw
        exact perform_finalReceived_writer hs hd hreq hperform
      · exact perform_finalReceived_of_ne hs hd hreq hperform hw
  · exact ⟨s.deliver_agents_length r,
      fun hsw => ⟨hsw.of_sendsOf_mem fun h _ hy => s.deliver_sendsOf r h ▸ hy, s.deliver_finalElems r w⟩,
      fun hd => ⟨hd.deliver hreq hresp, fun _ hk => State.deliver_finalReceived hs hreq hresp hk⟩⟩
  · exact ⟨State.acceptFrom_agents_length hagent,
      fun hsw => ⟨hsw.of_sendsOf_mem fun _ _ => State.mem_sendsOf_of_acceptFrom hagent,
        State.acceptFrom_finalElems hsw hreq hagent⟩,
      fun hd => ⟨hd.acceptFrom hreq hresp hagent hsynced,
        fun k _ => State.acceptFrom_finalReceived hs hd.singleWriter hreq hresp hagent k⟩⟩
  · exact .rfl

/-- No step asserts the reset input (R200). -/
theorem stepWith_resetIn {arbiter : Nat → Nat} (hreset : s.resetIn = false) (h : stepWith arbiter s = .next t) :
    t.resetIn = false := by
  rcases stepWith_cases_of_running hreset h with ⟨req, -, hperform⟩ | ⟨-, r, -, rfl⟩ |
    ⟨-, -, k, x, rest, received, hagent, -, rfl⟩ | rfl
  · obtain ⟨_, _, -, -, hkept, -⟩ := perform_answered hperform
    exact hkept.trans hreset
  · exact hreset
  · exact (State.acceptFrom_resetIn hagent).trans hreset
  · exact hreset

theorem runWith_keepsResults {arbiter : Nat → Nat} {n : Nat} (w : Nat) (hs : s.Inv) (hreset : s.resetIn = false)
    (h : runWith arbiter n s = some t) : State.KeepsResults w s t := by
  induction n generalizing s with
  | zero => cases h; exact .rfl
  | succ n ih =>
    rw [runWith] at h
    split at h
    case h_1 u hu =>
      exact (stepWith_keepsResults w hs hreset hu).trans (ih (stepWith_inv hs hu) (stepWith_resetIn hreset hu) h)
    case h_2 => cases h
    case h_3 => cases h

/-! ### Runs that are over (R209) -/

theorem State.RunOver.finalElems (hover : s.RunOver) (w : Nat) : s.finalElems w = s.elems := by
  obtain ⟨hreq, -, hissue⟩ := hover
  simp [State.finalElems, State.pendingInserts, hreq, hissue]

theorem State.RunOver.finalReceived (hover : s.RunOver) (w h : Nat) : s.finalReceived w h = s.receivedOf h := by
  obtain ⟨hreq, hresp, hissue⟩ := hover
  by_cases hw : h = w
  · subst hw
    simp [State.finalReceived_writer, State.portResponseOf_of_none hresp, State.portRequestOf_of_none hreq, hissue,
      State.answers]
  · simp [State.finalReceived_of_ne s hw, State.portResponseOf_of_none hresp, State.portRequestOf_of_none hreq, hissue,
      State.answers]

end Results

/-- Settles O58: two runs that are over both hold what the state they started from would end with. -/
theorem singleWriterFixesTheElements : Obligations.SingleWriterFixesTheElements := by
  refine ⟨fun arbiter w s t hs hreset hstep => ?step, fun w s hover => ?atEnd,
    fun arbiter arbiter' n n' w s t t' hs hreset hrun hrun' hover hover' => ?runs⟩
  case step =>
    obtain ⟨hhosts, helems, hreceived⟩ := stepWith_keepsResults w hs hreset hstep
    exact ⟨stepWith_inv hs hstep, stepWith_resetIn hreset hstep, hhosts, helems, hreceived⟩
  case atEnd => exact ⟨hover.finalElems w, hover.finalReceived w⟩
  case runs =>
    have hkeeps := runWith_keepsResults w hs hreset hrun
    have hkeeps' := runWith_keepsResults w hs hreset hrun'
    refine ⟨fun hsw => ?elems, fun hd h hlt => ?received⟩
    case elems =>
      calc t.elems = t.finalElems w := (hover.finalElems w).symm
        _ = s.finalElems w := (hkeeps.elems hsw).2
        _ = t'.finalElems w := (hkeeps'.elems hsw).2.symm
        _ = t'.elems := hover'.finalElems w
    case received =>
      calc t.receivedOf h = t.finalReceived w h := (hover.finalReceived w h).symm
        _ = s.finalReceived w h := (hkeeps.received hd).2 h hlt
        _ = t'.finalReceived w h := ((hkeeps'.received hd).2 h hlt).symm
        _ = t'.receivedOf h := hover'.finalReceived w h

end Sys2Proof.Machine
end
